-- ==== Sys2Proof/Word.lean ====
section
/-! DEFINITION. The three bit-vector types of the rusha SHA-1 core: the 32-bit data word (R3), the byte of
the staging buffer and of the source memory (R9), and the 128-bit command word (R53). -/

namespace Sys2Proof

/-- A data word: "The word width of the block is 32 bits" (R3). -/
abbrev Word := BitVec 32

/-- One byte of SB or of SRC (R22, R41). -/
abbrev Byte := BitVec 8

/-- One command as it stands on the command port: `cmd[127:0]` (R53). -/
abbrev CommandWord := BitVec 128

end Sys2Proof
end

