-- ==== Sys2Proof/Config.lean ====
section
/-! DEFINITION. What is fixed for one block: the chunk size `C` and the source size `SRC_LEN`
(R1, R4, R15). A configuration is plain data that a state carries and no step changes, so a
statement about every state is a statement about every configuration. -/

namespace Sys2Proof

/-- The parameters of one block (R15). `chunk` is `C`, `srcLen` is `SRC_LEN`. Whether the values are
legal (R1, R4) is `Config.legal` in Machine/Ops.lean; the step refuses a configuration that is not (R145). -/
structure Config where
  /-- `C`, the chunk size in bytes (R1). -/
  chunk : Nat
  /-- `SRC_LEN`, the size of the source memory in bytes (R4). -/
  srcLen : Nat
deriving DecidableEq, Repr

/-- The configuration of `State.reset`: the "suggested default" chunk size 65536 (R1), and the largest source
memory R4 allows. DESIGN CHOICE (log 2): the spec fixes neither for a given block. -/
def Config.default : Config where
  chunk := 65536
  srcLen := 4294967296

/-- What an address that a memory does not list reads as. DESIGN CHOICE, unsafe (log 1): it is only how
a sparse memory is written down. Any SB_INIT (R5) and any SRC contents (R4) are lists of cells over it. -/
def unwrittenByte : Byte := 0x00#8

end Sys2Proof
end

