-- ==== Sys2Proof/Syntax.lean ====
section
/-! DEFINITION. The commands of the block: one constructor per row of spec/opcode_table.json (R56). -/

namespace Sys2Proof

/-- A command, decoded (R56). Lengths, addresses, indexes and register numbers are natural numbers,
because every check on them is exact and never wraps (R8, R57); `v` is a 32-bit data value. That each
number fits its field (32 bits, and 64 bits for PAD's `M`) is `Instr.wellFormed`. -/
inductive Instr where
  /-- NOP (R109). -/
  | nop
  /-- INIT (R111). -/
  | init
  /-- PACK: `src` = OPA, `count` = OPB, `dst` = OPC (R72). -/
  | pack (src count dst : Nat)
  /-- PAD: `len` is the final-block length `L` = OPA, `msgLen` is `M` = OPC : OPB (R83, R58). -/
  | pad (len msgLen : Nat)
  /-- COMPRESS with P = 0: the length is OPA (R100, R99). -/
  | compress (len : Nat)
  /-- COMPRESS.P, COMPRESS with P = 1: the length is PLEN (R100, R99). -/
  | compressP
  /-- RDREG: register number `r` = OPA (R113). -/
  | rdreg (r : Nat)
  /-- WRREG: register number `r` = OPA, value `v` = OPB (R115). -/
  | wrreg (r : Nat) (v : Word)
  /-- RDSB: SB word index `j` = OPA (R119). -/
  | rdsb (j : Nat)
  /-- WRSB: SB word index `j` = OPA, value `v` = OPB (R121). -/
  | wrsb (j : Nat) (v : Word)
deriving DecidableEq, Repr

end Sys2Proof
end

