-- ==== Sys2Proof/WellFormed.lean ====
section
/-! DEFINITION. Which commands the 128-bit format can carry: each operand fits its field (R53, R57, R58). -/

namespace Sys2Proof

/-- A number fits a 32-bit operand field (R57: "an unsigned 32-bit number, used as is"). -/
def fits32 (n : Nat) : Bool := decide (n < 4294967296)

/-- A number fits PAD's two operand fields taken together (R58: "the 64-bit value `M = OPC : OPB`"). -/
def fits64 (n : Nat) : Bool := decide (n < 18446744073709551616)

/-- Every operand of the command fits the field that carries it. The values the command accepts are
another matter: a value outside a command's domain is a fault of the command (R142), not of its form. -/
def Instr.wellFormed : Instr → Bool
  | .nop => true
  | .init => true
  | .pack src count dst => fits32 src && fits32 count && fits32 dst
  | .pad len msgLen => fits32 len && fits64 msgLen
  | .compress len => fits32 len
  | .compressP => true
  | .rdreg r => fits32 r
  | .wrreg r _ => fits32 r
  | .rdsb j => fits32 j
  | .wrsb j _ => fits32 j

end Sys2Proof
end

