-- ==== Sys2Proof/Decode.lean ====
section
/-! DEFINITION. The fault causes (R142), the command word and its fields (R53), the decoder (R64) and the
encoder that is its inverse on the commands that fit. -/

namespace Sys2Proof

/-- The causes a command can fault with (R142). Code 0 (NONE) is no fault and codes 10 to 15 are never
raised, so neither is a constructor. -/
inductive Cause where
  /-- Cause 1: an unassigned opcode (R62). Raised by the decoder. -/
  | illegalCmd
  /-- Cause 2: RSV, P or an unused operand field is not zero (R60, R61). Raised by the decoder. -/
  | reservedField
  /-- Cause 3: PACK reads past the end of SRC (R74). -/
  | srcRange
  /-- Cause 4: PACK, RDSB or WRSB reaches past the end of SB (R74, R118). -/
  | sbRange
  /-- Cause 5: the padded length exceeds PADCAP (R82). -/
  | padRange
  /-- Cause 6: a COMPRESS length that is not a multiple of 64 (R103). -/
  | lenAlign
  /-- Cause 7: a COMPRESS length beyond PADCAP (R103). -/
  | lenRange
  /-- Cause 8: a register number above 8 (R113, R115). -/
  | regNum
  /-- Cause 9: a write to one of the read-only registers 5 to 8 (R115). -/
  | regReadonly
deriving DecidableEq, Repr

/-- The code written to STATUS.CAUSE (R142). -/
def Cause.code : Cause → Nat
  | .illegalCmd => 1
  | .reservedField => 2
  | .srcRange => 3
  | .sbRange => 4
  | .padRange => 5
  | .lenAlign => 6
  | .lenRange => 7
  | .regNum => 8
  | .regReadonly => 9

/-- The fields of a command word, each read as an unsigned number (R53). -/
structure Fields where
  /-- OP, bits 7:0. -/
  op : Nat
  /-- P, bit 8. -/
  p : Nat
  /-- RSV, bits 31:9. -/
  rsv : Nat
  /-- OPA, bits 63:32. -/
  a : Nat
  /-- OPB, bits 95:64. -/
  b : Nat
  /-- OPC, bits 127:96. -/
  x : Nat
deriving DecidableEq, Repr

/-- The unsigned field of bits `lo + width - 1` down to `lo` of a command word (R6, R53). -/
def fieldOf (w : CommandWord) (lo width : Nat) : Nat := (w.extractLsb' lo width).toNat

/-- A command word taken apart (R53). -/
def splitFields (w : CommandWord) : Fields where
  op := fieldOf w 0 8
  p := fieldOf w 8 1
  rsv := fieldOf w 9 23
  a := fieldOf w 32 32
  b := fieldOf w 64 32
  x := fieldOf w 96 32

/-- A command word put together, OPC in the most significant bits (R53). -/
def joinFields (f : Fields) : CommandWord :=
  BitVec.ofNat 32 f.x ++ BitVec.ofNat 32 f.b ++ BitVec.ofNat 32 f.a ++
    BitVec.ofNat 23 f.rsv ++ BitVec.ofNat 1 f.p ++ BitVec.ofNat 8 f.op

/-- The command when the fields it does not use are zero, else RESERVED_FIELD (R61). -/
def whenUnusedZero (unusedAreZero : Bool) (i : Instr) : Except Cause Instr :=
  if unusedAreZero then .ok i else .error .reservedField

/-- The opcode map, operand fields and their zero checks (R56, R58, R59, R61), for a word whose RSV is zero and
whose P is zero unless OP is `0x04`. Opcodes `0x09 .. 0xFF` are illegal (R62). -/
def decodeOpcode (f : Fields) : Except Cause Instr :=
  match f.op with
  | 0x00 => whenUnusedZero (f.a == 0 && f.b == 0 && f.x == 0) .nop
  | 0x01 => whenUnusedZero (f.a == 0 && f.b == 0 && f.x == 0) .init
  | 0x02 => .ok (.pack f.a f.b f.x)
  | 0x03 => .ok (.pad f.a (f.x * 4294967296 + f.b))
  | 0x04 =>
    if f.p = 0 then whenUnusedZero (f.b == 0 && f.x == 0) (.compress f.a)
    else whenUnusedZero (f.a == 0 && f.b == 0 && f.x == 0) .compressP
  | 0x05 => whenUnusedZero (f.b == 0 && f.x == 0) (.rdreg f.a)
  | 0x06 => whenUnusedZero (f.x == 0) (.wrreg f.a (BitVec.ofNat 32 f.b))
  | 0x07 => whenUnusedZero (f.b == 0 && f.x == 0) (.rdsb f.a)
  | 0x08 => whenUnusedZero (f.x == 0) (.wrsb f.a (BitVec.ofNat 32 f.b))
  | _ => .error .illegalCmd

/-- The decoder's checks in the order of R64 and R143: opcode, then RSV, then P, then the unused fields. -/
def decodeFields (f : Fields) : Except Cause Instr :=
  if 0x08 < f.op then .error .illegalCmd
  else if f.rsv ≠ 0 then .error .reservedField
  else if f.p = 1 ∧ f.op ≠ 0x04 then .error .reservedField
  else decodeOpcode f

/-- The decoder, total on all 2^128 words: a command, or the cause the word faults with (R64). -/
def decode (w : CommandWord) : Except Cause Instr := decodeFields (splitFields w)

/-- The fields of a command: its opcode and P flag, its operands in their fields, zero everywhere else
(R56, R58, R60, R61). -/
def encodeFields : Instr → Fields
  | .nop => ⟨0x00, 0, 0, 0, 0, 0⟩
  | .init => ⟨0x01, 0, 0, 0, 0, 0⟩
  | .pack src count dst => ⟨0x02, 0, 0, src, count, dst⟩
  | .pad len msgLen => ⟨0x03, 0, 0, len, msgLen % 4294967296, msgLen / 4294967296⟩
  | .compress len => ⟨0x04, 0, 0, len, 0, 0⟩
  | .compressP => ⟨0x04, 1, 0, 0, 0, 0⟩
  | .rdreg r => ⟨0x05, 0, 0, r, 0, 0⟩
  | .wrreg r v => ⟨0x06, 0, 0, r, v.toNat, 0⟩
  | .rdsb j => ⟨0x07, 0, 0, j, 0, 0⟩
  | .wrsb j v => ⟨0x08, 0, 0, j, v.toNat, 0⟩

/-- The command word of a well-formed command (R53, R56). -/
def encode (i : Instr) : CommandWord := joinFields (encodeFields i)

/-- The `nbits` low bits of `w` as a command word, the bits above them zero. -/
def commandOfTableWord (nbits w : Nat) : CommandWord := BitVec.ofNat 128 (w % 2 ^ nbits)

/-- The command that the decoder reads from a row's word, `none` where the word faults. The word is numbered as
spec/opcode_table.json numbers it, which is how R53 numbers `cmd[127:0]`. -/
def decodeTableWord (nbits w : Nat) : Option Instr :=
  match decode (commandOfTableWord nbits w) with
  | .ok i => some i
  | .error _ => none

end Sys2Proof
end

