-- ==== Sys2Proof/Machine/State.lean ====
section
/-! DEFINITION. The state of one block and of the host that drives it, as plain data; how a rule of the spec
ends; the reasons a step stops; and the state after reset. -/

namespace Sys2Proof.Machine

/-- A sparse byte memory: the cells that are listed, every other address reading `unwrittenByte`. Used for
SB (R22) and for SRC (R41). Its canonical form is `Memory.wf` (Ops.lean). -/
abbrev Memory := List Host.Cell

/-- The five chaining registers `H[0] .. H[4]` (R18). -/
structure Chain where
  /-- `H[0]`, the source's `a`. -/
  h0 : Word
  /-- `H[1]`, the source's `b`. -/
  h1 : Word
  /-- `H[2]`, the source's `c`. -/
  h2 : Word
  /-- `H[3]`, the source's `d`. -/
  h3 : Word
  /-- `H[4]`, the source's `e`. -/
  h4 : Word
deriving DecidableEq, Repr

/-- The initial value of the chaining registers (R20). -/
def Chain.iv : Chain := ⟨0x67452301#32, 0xEFCDAB89#32, 0x98BADCFE#32, 0x10325476#32, 0xC3D2E1F0#32⟩

/-- One action of the host's list (R14): "commands, RST, SRC writes and host-state updates". -/
inductive HostAction where
  /-- The host issues a command word on the command port (R52, R54). -/
  | command (w : CommandWord)
  /-- The host asserts RST. `sbInit` is that reset's draw SB_INIT (R5, R158): any bytes at all, since the list is any list. -/
  | rst (sbInit : Memory)
  /-- The host writes `bytes` into SRC from index `base` on (R41). -/
  | srcWrite (base : Nat) (bytes : List Byte)
  /-- The host sets its running offset ROFF (R124). -/
  | setRoff (roff : Nat)
deriving DecidableEq, Repr

/-- The state a step acts on. The block's own tuple is `h`, `sb`, `plen` and `status` (10_state.md), and `result` is
what its command port last returned (R55). The rest is the configuration and the host (R11). -/
structure State where
  /-- The parameters of this block (R15): no step changes them. -/
  cfg : Config
  /-- The chaining registers H0..H4 (R18). -/
  h : Chain
  /-- The staging buffer SB (R22). -/
  sb : Memory
  /-- PLEN, register 5: the padded length of the last PAD that did not fault (R25). -/
  plen : Word
  /-- STATUS, register 6 (R26). -/
  status : Word
  /-- The result word of the last command (R55). -/
  result : Word
  /-- The source memory SRC, owned by the host (R41). -/
  src : Memory
  /-- The host's running offset ROFF (R124). -/
  roff : Nat
  /-- The actions the host has still to take, the next one first (R14). -/
  pending : List HostAction
  /-- How many commands the host has issued: the index of its next command (R33). -/
  pc : Nat
  /-- The result words the host has received, the first one first (R14). -/
  results : List Word
deriving DecidableEq, Repr

/-- How the rule of a command ends on a state: with its effects and a result word, or with a fault
(R144: "Ok(effects, result) or Fault(cause)"). -/
inductive RuleOutcome where
  /-- The rule's writes are `s`, its result word is `result`. -/
  | ok (s : State) (result : Word)
  /-- The rule raised `Fault(cause)`. -/
  | raise (cause : Cause)
deriving DecidableEq, Repr

/-- The reasons the machine stops with a fault. The faults of a COMMAND are none of these: a command that faults
takes a next state, with STATUS written (R141). -/
inductive Fault where
  /-- Raised by the host action `srcWrite` when one of its bytes lies past the end of SRC (R4: SRC holds SRC_LEN bytes). The spec
  gives no byte there to write. A DESIGN CHOICE (log 11). Safe: nothing can be proved of what happens after it. -/
  | srcWriteOutside
deriving DecidableEq, Repr

/-- The reasons the machine refuses. -/
inductive Refusal where
  /-- Raised by exec for an instruction that has no meaning yet. Safe. No arm of this model raises it. -/
  | notModelled (mnemonic : String)
  /-- Raised by step when `C` is not legal: the Configuration Error (R145, "A model refuses the configuration rather
  than running it"). Safe. -/
  | configurationError
  /-- Raised by step when SRC_LEN exceeds 2^32, outside the range R4 gives the parameter. Safe. -/
  | sourceTooLarge
deriving DecidableEq, Repr

/-- The machine right after reset (R158, R159), with the host before its first command (R125): H is the IV, PLEN and STATUS are zero,
ROFF is 0, and no action is pending. SB and SRC list nothing (log 1): the RST that takes any SB_INIT is `State.assertReset` in Ops.lean. -/
def State.reset : State where
  cfg := Config.default
  h := Chain.iv
  sb := []
  plen := 0x00000000#32
  status := 0x00000000#32
  result := 0x00000000#32
  src := []
  roff := 0
  pending := []
  pc := 0
  results := []

end Sys2Proof.Machine
end

