-- ==== Sys2Proof/Machine/Flags.lean ====
section
/-! DEFINITION. The status bits: STATUS.ERR and STATUS.CAUSE (R26). The block has no condition code and no
command records a carry, an overflow or a comparison (R34, R7), so these are all of them. -/

namespace Sys2Proof.Machine

/-- STATUS.ERR, bit 0: a command has faulted since the last hardware reset (R26). -/
def State.err (s : State) : Bool := s.status.getLsbD 0

/-- STATUS.CAUSE, bits 11:8: the cause code of the first fault since reset (R26). -/
def State.causeCode (s : State) : BitVec 4 := s.status.extractLsb' 8 4

/-- What STATUS becomes on the first fault: `0x00000001 | (cause << 8)` (R141). -/
def faultStatus (cause : Cause) : Word := 0x00000001#32 ||| (BitVec.ofNat 32 cause.code <<< 8)

/-- The legal values of STATUS (R26): zero, or ERR with one of the cause codes 1 to 9. -/
def legalStatus (w : Word) : Bool :=
  w == 0x00000000#32 || (List.range 9).any fun c => w == (0x00000001#32 ||| (BitVec.ofNat 32 (c + 1) <<< 8))

end Sys2Proof.Machine
end

