-- ==== Sys2Proof/Machine/Ops.lean ====
section
/-! DEFINITION. The shared operations: word and byte-order helpers (R7, R8), memory (R9), the configuration's
checks (R1, R145), named updates of the state, reset (R158), the fault action (R141) and how every
command ends (R144). -/

namespace Sys2Proof.Machine

/-! ### Words and numbers -/

/-- `rotl(x, n)` for `0 < n < 32` (R7). -/
def rotl (x : Word) (n : Nat) : Word := (x <<< n) ||| (x >>> (32 - n))

/-- The smallest multiple of 64 that is at least `x`, on naturals (R8, R80). -/
def ceil64 (x : Nat) : Nat := 64 * ((x + 63) / 64)

/-- `BE32(w)`: the four bytes of a word, the most significant first (R8). -/
def be32 (w : Word) : List Byte :=
  [w.extractLsb' 24 8, w.extractLsb' 16 8, w.extractLsb' 8 8, w.extractLsb' 0 8]

/-- `BE64(v)`: the eight bytes of a 64-bit value, the most significant first (R8). -/
def be64 (v : BitVec 64) : List Byte :=
  be32 (v.extractLsb' 32 32) ++ be32 (v.extractLsb' 0 32)

/-! ### Memory -/

namespace Memory

/-- Addresses strictly rising, and no cell that says what an unlisted address reads as anyway. -/
abbrev wf (m : Memory) : Prop :=
  m.Pairwise (fun c d => c.1 < d.1) ∧ ∀ c ∈ m, c.2 ≠ unwrittenByte

/-- Every listed address is below `size`. -/
abbrev within (size : Nat) (m : Memory) : Prop := ∀ c ∈ m, c.1 < size

/-- The byte at an address: `SB[k]`, or `MemRead(SRC, addr, 1)` (R9). Reading has no side effect (R48). -/
def read : Memory → Nat → Byte
  | [], _ => unwrittenByte
  | c :: m, a => if c.1 = a then c.2 else read m a

/-- The `count` bytes from `base` on, in address order. -/
def readBytes (m : Memory) (base count : Nat) : List Byte :=
  (List.range count).map fun i => read m (base + i)

/-- The cells that write `bytes` from `base` on, less those that need not be listed. -/
def cellsFrom : Nat → List Byte → Memory
  | _, [] => []
  | base, b :: bytes =>
    if b = unwrittenByte then cellsFrom (base + 1) bytes else (base, b) :: cellsFrom (base + 1) bytes

/-- The memory with `bytes` at `base`, `base + 1` and so on, every other address as before. Every write to SB
and to SRC is one of these. -/
def writeBytes (m : Memory) (base : Nat) (bytes : List Byte) : Memory :=
  m.filter (fun c => decide (c.1 < base)) ++ cellsFrom base bytes ++
    m.filter (fun c => decide (base + bytes.length ≤ c.1))

/-- `SB[k] <- v` (R9). -/
def writeByte (m : Memory) (k : Nat) (v : Byte) : Memory := writeBytes m k [v]

/-- `MemRead(SB, addr, 4)`: the byte at the lowest address is the most significant (R9, R38). -/
def readWord (m : Memory) (addr : Nat) : Word :=
  read m addr ++ read m (addr + 1) ++ read m (addr + 2) ++ read m (addr + 3)

/-- `MemWrite(SB, addr, 4, v)` (R9). -/
def writeWord (m : Memory) (addr : Nat) (v : Word) : Memory := writeBytes m addr (be32 v)

/-- `MemWrite(SB, addr, 8, v)` (R9). -/
def writeDouble (m : Memory) (addr : Nat) (v : BitVec 64) : Memory := writeBytes m addr (be64 v)

/-- The canonical memory of the `size` addresses from 0 on that reads, at each of them, what `m` reads there. -/
def confine (size : Nat) (m : Memory) : Memory :=
  m.foldr (fun c acc => if c.1 < size then writeByte acc c.1 c.2 else acc) []

end Memory

end Sys2Proof.Machine

namespace Sys2Proof.Config

/-- `PADCAP = C + 64`, the number of bytes of SB (R2, R22). -/
def padcap (cfg : Config) : Nat := cfg.chunk + 64

/-- Word `j` lies in SB: `j < PADCAP / 4` (R118). -/
def wordInSb (cfg : Config) (j : Nat) : Bool := decide (j < cfg.padcap / 4)

/-- The legal chunk sizes: positive multiples of 64, at most `2^32 - 128` (R1). -/
def legalChunk (cfg : Config) : Bool :=
  decide (0 < cfg.chunk) && decide (cfg.chunk % 64 = 0) && decide (cfg.chunk ≤ 4294967168)

/-- The legal source sizes: `0 <= SRC_LEN <= 2^32` (R4). -/
def legalSource (cfg : Config) : Bool := decide (cfg.srcLen ≤ 4294967296)

/-- Both parameters are legal: the block exists. -/
def legal (cfg : Config) : Bool := cfg.legalChunk && cfg.legalSource

/-- Why no block exists for this configuration, if none does (R145). -/
def refusal (cfg : Config) : Option Machine.Refusal :=
  if cfg.legalChunk then (if cfg.legalSource then none else some .sourceTooLarge)
  else some .configurationError

end Sys2Proof.Config

namespace Sys2Proof.Machine

/-! ### Named updates of the state -/

namespace State

/-- `H <- c`. -/
def setChain (c : Chain) (s : State) : State := { s with h := c }

/-- SB becomes `m`. -/
def setStaging (m : Memory) (s : State) : State := { s with sb := m }

/-- `PLEN <- w`. -/
def setPlen (w : Word) (s : State) : State := { s with plen := w }

/-- `STATUS <- w`. -/
def setStatus (w : Word) (s : State) : State := { s with status := w }

/-- `result <- w` (R9). -/
def setResult (w : Word) (s : State) : State := { s with result := w }

/-- SRC becomes `m`: only the host does this (R41). -/
def setSource (m : Memory) (s : State) : State := { s with src := m }

/-- `ROFF <- n`: only the host does this (R124). -/
def setRoff (n : Nat) (s : State) : State := { s with roff := n }

/-- The host's remaining actions become `l`. -/
def setPending (l : List HostAction) (s : State) : State := { s with pending := l }

/-- The host's command index becomes `n` (R33). -/
def setPc (n : Nat) (s : State) : State := { s with pc := n }

/-- The result words received become `l` (R14). -/
def setResults (l : List Word) (s : State) : State := { s with results := l }

/-- The host issues its next command: `rest` is what remains of its list, and its index advances by one (R33, R54). -/
def issue (rest : List HostAction) (s : State) : State := (s.setPending rest).setPc (s.pc + 1)

/-- The host receives the result word the command returned (R54, R55). -/
def receive (s : State) : State := s.setResults (s.results ++ [s.result])

/-! ### Reset -/

/-- RST with the draw `sbInit` (R158): H, PLEN and STATUS take their reset values and SB takes the draw, whatever it held.
Nothing of the host's changes, and RST returns no result word. -/
def assertReset (sbInit : Memory) (s : State) : State :=
  (((s.setChain Chain.iv).setPlen 0x00000000#32).setStatus 0x00000000#32).setStaging
    (Memory.confine s.cfg.padcap sbInit)

/-- Construction of a block (R125, R162): a legal configuration, RST with the draw `sbInit`, and ROFF zero. A configuration that is
not legal is refused and no instance exists (R145). -/
def construct (cfg : Config) (sbInit : Memory) : Host.Outcome State Fault Refusal :=
  match cfg.refusal with
  | some r => .refused r
  | none => .next ((({ reset with cfg := cfg } : State).assertReset sbInit).setRoff 0)

/-! ### The fault action and how every command ends -/

/-- `Fault(cause)` (R141): STATUS records the first cause, the result is zero, and nothing else changes. No state is saved,
no mode switched and no control transferred (R149). The only way out is `assertReset` (R150). -/
def takeFault (cause : Cause) (s : State) : State :=
  (if s.err then s else s.setStatus (faultStatus cause)).setResult 0x00000000#32

/-- How a command ends (R144), from how its rule ended on `s`. `isRead` is whether the command is RDREG or RDSB. While
ERR = 1 a read that passes its checks returns its result and anything else is dropped with result zero; no other state changes. -/
def finish (isRead : Bool) (o : RuleOutcome) (s : State) : Host.Outcome State Fault Refusal :=
  match o, s.err with
  | .ok t r, false => .next (t.setResult r)
  | .raise cause, false => .next (s.takeFault cause)
  | .ok _ r, true => .next (s.setResult (if isRead then r else 0x00000000#32))
  | .raise _, true => .next (s.setResult 0x00000000#32)

/-- The host writes `bytes` into SRC from `base` on (R14, R41). DESIGN CHOICE (log 11), since the spec says nothing of the two
corners: a write of no byte changes nothing whatever `base`, as "zero-length update calls are valid and must not error" asks of
an update (R128), and a write that reaches past the end of SRC, where there is no byte to write, stops. -/
def hostWriteSource (base : Nat) (bytes : List Byte) (s : State) : Host.Outcome State Fault Refusal :=
  if bytes = [] then .next s
  else if base + bytes.length ≤ s.cfg.srcLen then .next (s.setSource (s.src.writeBytes base bytes))
  else .fault .srcWriteOutside

/-- The command's outcome once the host has received the result word. -/
def afterCommand (o : Host.Outcome State Fault Refusal) : Host.Outcome State Fault Refusal :=
  match o with
  | .next t => .next t.receive
  | .fault r => .fault r
  | .refused r => .refused r

/-- The state with `w` as the command the host issues next. -/
def withNextCommand (w : CommandWord) (s : State) : State := s.setPending (.command w :: s.pending)

end State

end Sys2Proof.Machine
end

