-- ==== Sys2Proof/Machine/Operands.lean ====
section
/-! DEFINITION. The operand forms and what each selects: the register map (R21), the word view of SB (R38, R118), the
padding's lengths (R80, R81) and the length of COMPRESS.P (R99). -/

namespace Sys2Proof.Machine

/-! ### The register map -/

/-- `H[r]` for `r` in 0 .. 4 (R18). -/
def Chain.get (c : Chain) (r : Nat) : Option Word :=
  match r with
  | 0 => some c.h0
  | 1 => some c.h1
  | 2 => some c.h2
  | 3 => some c.h3
  | 4 => some c.h4
  | _ => none

/-- `H[r] <- v` for `r` in 0 .. 4; any other number names no chaining register (R21). -/
def Chain.set (c : Chain) (r : Nat) (v : Word) : Chain :=
  match r with
  | 0 => { c with h0 := v }
  | 1 => { c with h1 := v }
  | 2 => { c with h2 := v }
  | 3 => { c with h3 := v }
  | 4 => { c with h4 := v }
  | _ => c

/-- The five words in order (R130). -/
def Chain.words (c : Chain) : List Word := [c.h0, c.h1, c.h2, c.h3, c.h4]

/-- The register numbers of PLEN, STATUS, CHUNK and PADCAP (R21); H0..H4 are 0 .. 4. -/
def regPlen : Nat := 5
/-- STATUS is register 6 (R21). -/
def regStatus : Nat := 6
/-- CHUNK is register 7 (R21). -/
def regChunk : Nat := 7
/-- PADCAP is register 8 (R21). -/
def regPadcap : Nat := 8

/-- The value of register `r` (R21, R113), `none` for the numbers that name no register (R29). CHUNK and PADCAP
read as the constants `C` and `C + 64` (R27, R28). -/
def State.readRegister (s : State) (r : Nat) : Option Word :=
  match r with
  | 5 => some s.plen
  | 6 => some s.status
  | 7 => some (BitVec.ofNat 32 s.cfg.chunk)
  | 8 => some (BitVec.ofNat 32 s.cfg.padcap)
  | n => s.h.get n

/-! ### The word view of SB -/

/-- The byte address of SB word `j`: `4*j`, exact (R57, R118). -/
def wordAddr (j : Nat) : Nat := 4 * j

/-- `SBword(j)` (R38). -/
def State.sbWord (s : State) (j : Nat) : Word := s.sb.readWord (wordAddr j)

/-! ### Lengths -/

/-- The padded length `P = ceil64(L + 9)` (R80). -/
def paddedLength (len : Nat) : Nat := ceil64 (len + 9)

/-- The bit-length trailer `T = (8 * M) mod 2^64` (R81). -/
def bitLengthTrailer (msgLen : Nat) : BitVec 64 := BitVec.ofNat 64 (8 * msgLen)

/-- The length of COMPRESS.P: PLEN as it is before the step (R99). -/
def State.plenLength (s : State) : Nat := s.plen.toNat

end Sys2Proof.Machine
end

