-- ==== Sys2Proof/Machine/Compressor.lean ====
section
/-! DEFINITION. The Compression Core: the function of one block (R90 to R98), COMPRESS and COMPRESS.P (R99 to R108). -/

namespace Sys2Proof.Machine

/-! ### The block compression function -/

/-- The next word of a message schedule of `t` words: `rotl(W[t-3] ^ W[t-8] ^ W[t-14] ^ W[t-16], 1)` (R92). -/
def nextScheduleWord (ws : List Word) : Word :=
  let t := ws.length
  rotl (ws.getD (t - 3) 0 ^^^ ws.getD (t - 8) 0 ^^^ ws.getD (t - 14) 0 ^^^ ws.getD (t - 16) 0) 1

/-- A schedule made longer by so many words, in increasing `t` (R92). -/
def extendSchedule : Nat → List Word → List Word
  | 0, ws => ws
  | n + 1, ws => extendSchedule n (ws ++ [nextScheduleWord ws])

/-- `W[0 .. 79]` of a block's sixteen words (R91, R92). -/
def schedule (block : List Word) : List Word := extendSchedule 64 block

/-- Select: the bit of `c` where `b` is 1 and of `d` where `b` is 0 (R93). -/
def selectBits (b c d : Word) : Word := (b &&& c) ||| (~~~b &&& d)

/-- Parity (R94). -/
def parityBits (b c d : Word) : Word := b ^^^ c ^^^ d

/-- Majority (R95). -/
def majorityBits (b c d : Word) : Word := (b &&& c) ||| (b &&& d) ||| (c &&& d)

/-- The round function `f(t, b, c, d)` by round range (R93, R94, R95). -/
def roundFunction (t : Nat) (b c d : Word) : Word :=
  if t < 20 then selectBits b c d
  else if t < 40 then parityBits b c d
  else if t < 60 then majorityBits b c d
  else parityBits b c d

/-- The round constant `K(t)` (R96). -/
def roundConstant (t : Nat) : Word :=
  if t < 20 then 0x5A827999#32
  else if t < 40 then 0x6ED9EBA1#32
  else if t < 60 then 0x8F1BBCDC#32
  else 0xCA62C1D6#32

/-- The working variables of one block (R31). They are no part of the state. -/
structure Working where
  /-- `a`. -/
  a : Word
  /-- `b`. -/
  b : Word
  /-- `c`. -/
  c : Word
  /-- `d`. -/
  d : Word
  /-- `e`. -/
  e : Word
deriving DecidableEq, Repr

/-- Round `t` with schedule word `w` (R97): all five take their new values at once, by the list of 90_conflicts.md C1. -/
def roundStep (t : Nat) (w : Word) (v : Working) : Working where
  a := rotl v.a 5 + roundFunction t v.b v.c v.d + v.e + w + roundConstant t
  b := v.a
  c := rotl v.b 30
  d := v.c
  e := v.d

/-- The rounds from `t` on, one for each schedule word that is left (R97). -/
def runRounds : Nat → List Word → Working → Working
  | _, [], v => v
  | t, w :: ws, v => runRounds (t + 1) ws (roundStep t w v)

/-- The working variables seeded from the chaining registers (R97). -/
def seedWorking (h : Chain) : Working := ⟨h.h0, h.h1, h.h2, h.h3, h.h4⟩

/-- The working variables added back into the chaining registers, component by component (R98). -/
def foldBack (h : Chain) (v : Working) : Chain := ⟨h.h0 + v.a, h.h1 + v.b, h.h2 + v.c, h.h3 + v.d, h.h4 + v.e⟩

/-- `CompressBlock(H, B)` (R90). -/
def compressBlock (h : Chain) (block : List Word) : Chain :=
  foldBack h (runRounds 0 (schedule block) (seedWorking h))

/-! ### The two commands -/

/-- The sixteen words of block `n` of SB: `SBword(16n) .. SBword(16n + 15)` (R91, R100). -/
def blockWords (m : Memory) (n : Nat) : List Word :=
  (List.range 16).map fun t => m.readWord (wordAddr (16 * n + t))

/-- The chaining value after the first `count` blocks of SB, in increasing address order (R100, R101). -/
def compressBlocks (m : Memory) (count : Nat) (h : Chain) : Chain :=
  (List.range count).foldl (fun c n => compressBlock c (blockWords m n)) h

/-- The rule COMPRESS and COMPRESS.P share, for a length of `len` bytes (R100, R103): LEN_ALIGN, then LEN_RANGE, else H is
the chaining value after the `len / 64` blocks, and nothing else is written (R104). -/
def ruleCompress (len : Nat) (s : State) : RuleOutcome :=
  if len % 64 ≠ 0 then .raise .lenAlign
  else if s.cfg.padcap < len then .raise .lenRange
  else .ok (s.setChain (compressBlocks s.sb (len / 64) s.h)) 0x00000000#32

/-- COMPRESS: the length is OPA (R99, R100). -/
def execCompress (len : Nat) (s : State) : Host.Outcome State Fault Refusal :=
  s.finish false (ruleCompress len s)

/-- COMPRESS.P: the length is PLEN (R99, R100). -/
def execCompressP (s : State) : Host.Outcome State Fault Refusal :=
  s.finish false (ruleCompress s.plenLength s)

end Sys2Proof.Machine
end

