-- ==== Sys2Proof/Machine/Control.lean ====
section
/-! DEFINITION. The control and access commands: NOP, INIT, RDREG, WRREG, RDSB and WRSB (R109 to R122). -/

namespace Sys2Proof.Machine

/-- NOP (R109). -/
def execNop (s : State) : Host.Outcome State Fault Refusal :=
  s.finish false (.ok s 0x00000000#32)

/-- INIT: H takes the IV, and SB, PLEN and STATUS stay (R111, R112). -/
def execInit (s : State) : Host.Outcome State Fault Refusal :=
  s.finish false (.ok (s.setChain Chain.iv) 0x00000000#32)

/-- RDREG's rule: the register's value, REG_NUM where no register has the number (R113). -/
def ruleRdreg (r : Nat) (s : State) : RuleOutcome :=
  match s.readRegister r with
  | some v => .ok s v
  | none => .raise .regNum

/-- RDREG (R113). It runs while ERR = 1 too (R114). -/
def execRdreg (r : Nat) (s : State) : Host.Outcome State Fault Refusal :=
  s.finish true (ruleRdreg r s)

/-- WRREG's rule (R115): REG_NUM above 8, REG_READONLY for 5 to 8, else `H[r] <- v`. -/
def ruleWrreg (r : Nat) (v : Word) (s : State) : RuleOutcome :=
  if 8 < r then .raise .regNum
  else if 4 < r then .raise .regReadonly
  else .ok (s.setChain (s.h.set r v)) 0x00000000#32

/-- WRREG (R115). -/
def execWrreg (r : Nat) (v : Word) (s : State) : Host.Outcome State Fault Refusal :=
  s.finish false (ruleWrreg r v s)

/-- RDSB's rule (R119): SB_RANGE past the last word, else the word. -/
def ruleRdsb (j : Nat) (s : State) : RuleOutcome :=
  if s.cfg.wordInSb j then .ok s (s.sbWord j) else .raise .sbRange

/-- RDSB (R119). It runs while ERR = 1 too (R120). -/
def execRdsb (j : Nat) (s : State) : Host.Outcome State Fault Refusal :=
  s.finish true (ruleRdsb j s)

/-- WRSB's rule (R121): SB_RANGE past the last word, else all four bytes of the word (R122). -/
def ruleWrsb (j : Nat) (v : Word) (s : State) : RuleOutcome :=
  if s.cfg.wordInSb j then .ok (s.setStaging (s.sb.writeWord (wordAddr j) v)) 0x00000000#32
  else .raise .sbRange

/-- WRSB (R121). -/
def execWrsb (j : Nat) (v : Word) (s : State) : Host.Outcome State Fault Refusal :=
  s.finish false (ruleWrsb j v s)

end Sys2Proof.Machine
end

