-- ==== Sys2Proof/Machine/Packer.lean ====
section
/-! DEFINITION. The Byte-to-Word Packer: PACK (R68 to R77). -/

namespace Sys2Proof.Machine

/-- SB after the copy: byte `dst + k` is `SRC[src + k]` for `k` in `0 .. count-1` (R69, R72). -/
def packed (src count dst : Nat) (s : State) : Memory :=
  s.sb.writeBytes dst (s.src.readBytes src count)

/-- PACK's rule (R72), its checks in the order of R74: nothing at all for `count = 0` (R73), then SRC_RANGE, then SB_RANGE. -/
def rulePack (src count dst : Nat) (s : State) : RuleOutcome :=
  if count = 0 then .ok s 0x00000000#32
  else if s.cfg.srcLen < src + count then .raise .srcRange
  else if s.cfg.padcap < dst + count then .raise .sbRange
  else .ok (s.setStaging (packed src count dst s)) 0x00000000#32

/-- PACK (R72). -/
def execPack (src count dst : Nat) (s : State) : Host.Outcome State Fault Refusal :=
  s.finish false (rulePack src count dst s)

end Sys2Proof.Machine
end

