-- ==== Sys2Proof/Machine/Padder.lean ====
section
/-! DEFINITION. The Padding Constructor: PAD (R78 to R89). -/

namespace Sys2Proof.Machine

/-- SB after the padding of a final block of `len` bytes (R83): zero-fill `[L, P)`, the terminator `0x80` at `L`, and the
big-endian trailer in the last eight bytes below `P`. -/
def padded (len msgLen : Nat) (m : Memory) : Memory :=
  ((m.writeBytes len (List.replicate (paddedLength len - len) 0x00#8)).writeByte len 0x80#8).writeDouble
    (paddedLength len - 8) (bitLengthTrailer msgLen)

/-- PAD's rule (R83): PAD_RANGE when `P` exceeds PADCAP (R82), else the padding, and `PLEN <- P` (R86). -/
def rulePad (len msgLen : Nat) (s : State) : RuleOutcome :=
  if s.cfg.padcap < paddedLength len then .raise .padRange
  else .ok ((s.setStaging (padded len msgLen s.sb)).setPlen (BitVec.ofNat 32 (paddedLength len))) 0x00000000#32

/-- PAD (R83). -/
def execPad (len msgLen : Nat) (s : State) : Host.Outcome State Fault Refusal :=
  s.finish false (rulePad len msgLen s)

end Sys2Proof.Machine
end

