-- ==== Sys2Proof/Machine/Dispatch.lean ====
section
/-! DEFINITION. One arm per command (R56). -/

namespace Sys2Proof.Machine

/-- What a decoded command does. -/
def exec (i : Instr) (s : State) : Host.Outcome State Fault Refusal :=
  match i with
  | .nop => Sys2Proof.Machine.execNop s
  | .init => Sys2Proof.Machine.execInit s
  | .pack src count dst => Sys2Proof.Machine.execPack src count dst s
  | .pad len msgLen => Sys2Proof.Machine.execPad len msgLen s
  | .compress len => Sys2Proof.Machine.execCompress len s
  | .compressP => Sys2Proof.Machine.execCompressP s
  | .rdreg r => Sys2Proof.Machine.execRdreg r s
  | .wrreg r v => Sys2Proof.Machine.execWrreg r v s
  | .rdsb j => Sys2Proof.Machine.execRdsb j s
  | .wrsb j v => Sys2Proof.Machine.execWrsb j v s

end Sys2Proof.Machine
end

