-- ==== Sys2Proof/Machine/Step.lean ====
section
/-! DEFINITION. One step: the next action of the host's list, a command being decoded and run (R11, R12, R54). -/

namespace Sys2Proof.Machine

/-- The block's response to one command word (R12, R64, R144): the command it decodes to, or the fault of its decoding. -/
def runCommand (w : CommandWord) (s : State) : Host.Outcome State Fault Refusal :=
  match decode w with
  | .ok i => exec i s
  | .error cause => s.finish false (.raise cause)

/-- One step. No step exists for an illegal configuration (R145). With no action left nothing happens: "no state changes
without a command or RST" (R157). -/
def step (s : State) : Host.Outcome State Fault Refusal :=
  match s.cfg.refusal with
  | some r => .refused r
  | none =>
    match s.pending with
    | [] => .next s
    | .command w :: rest => State.afterCommand (runCommand w (s.issue rest))
    | .rst sbInit :: rest => .next ((s.setPending rest).assertReset sbInit)
    | .srcWrite base bytes :: rest => (s.setPending rest).hostWriteSource base bytes
    | .setRoff n :: rest => .next ((s.setPending rest).setRoff n)

/-- The state whose next step runs the command of the `nbits` low bits of `w`: the host issues it next. The block
fetches nothing (R33): the host's list is where a step finds its command (log 6). -/
def State.withFetchWord (s : State) (nbits w : Nat) : State := s.withNextCommand (commandOfTableWord nbits w)

end Sys2Proof.Machine
end

