-- ==== Sys2Proof/Machine/Instances.lean ====
section
/-! DEFINITION. Several blocks side by side, each with its own state and host (R51, R155). -/

namespace Sys2Proof.Machine

/-- The system after block `k` takes a step: every other block is where it was (R51). A block that stops, or a `k` that
names none, leaves the system as it is. -/
def stepBlock (k : Nat) (blocks : List State) : List State :=
  match blocks[k]? with
  | none => blocks
  | some s =>
    match step s with
    | .next t => blocks.set k t
    | .fault _ => blocks
    | .refused _ => blocks

end Sys2Proof.Machine
end

