-- ==== Sys2Proof/Machine/Assembler.lean ====
section
/-! DEFINITION. The text forms of a command: the hexadecimal form of a command word (R65), the assembler's lines (R66) and
the pseudo-instructions (R67). Text is a list of characters. -/

namespace Sys2Proof.Machine

/-! ### Pseudo-instructions -/

/-- The pseudo-instructions (R67). -/
inductive Pseudo where
  /-- `RDDIGEST`. -/
  | rddigest
  /-- `FINAL L, M`. -/
  | final (len msgLen : Nat)
  /-- `WRSTATE h0, h1, h2, h3, h4`. -/
  | wrstate (h : Chain)
  /-- `CLRBLK j`. -/
  | clrblk (j : Nat)
deriving DecidableEq, Repr

/-- The commands a pseudo-instruction stands for, in order (R67). -/
def Pseudo.expand : Pseudo → List Instr
  | .rddigest => [.rdreg 0, .rdreg 1, .rdreg 2, .rdreg 3, .rdreg 4]
  | .final len msgLen => [.pad len msgLen, .compressP]
  | .wrstate h => [.wrreg 0 h.h0, .wrreg 1 h.h1, .wrreg 2 h.h2, .wrreg 3 h.h3, .wrreg 4 h.h4]
  | .clrblk j => (List.range 16).map fun k => .wrsb (j + k) 0x00000000#32

/-! ### Digits -/

/-- The lower-case hexadecimal digit of a number below 16. -/
def hexChar (d : Nat) : Char :=
  ['0', '1', '2', '3', '4', '5', '6', '7', '8', '9', 'a', 'b', 'c', 'd', 'e', 'f'].getD d '0'

/-- The `count` low hexadecimal digits of a number, most significant first (R65). -/
def hexDigits : Nat → Nat → List Char
  | 0, _ => []
  | count + 1, n => hexDigits count (n / 16) ++ [hexChar (n % 16)]

/-- The value of a digit, either case for the letters. -/
def digitValue (c : Char) : Option Nat :=
  let n := c.toNat
  if 48 ≤ n ∧ n ≤ 57 then some (n - 48)
  else if 97 ≤ n ∧ n ≤ 102 then some (n - 87)
  else if 65 ≤ n ∧ n ≤ 70 then some (n - 55)
  else none

/-- The number that digits of a base spell after `acc`, `none` if one of them is no digit of the base. -/
def digitsValue (base : Nat) : Nat → List Char → Option Nat
  | acc, [] => some acc
  | acc, c :: cs =>
    match digitValue c with
    | some d => if d < base then digitsValue base (acc * base + d) cs else none
    | none => none

/-! ### The text form of a command word -/

/-- The text form `OPC_OPB_OPA_W0` (R65). -/
def textForm (w : CommandWord) : List Char :=
  hexDigits 8 (fieldOf w 96 32) ++ '_' :: hexDigits 8 (fieldOf w 64 32) ++ '_' :: hexDigits 8 (fieldOf w 32 32) ++
    '_' :: hexDigits 8 (fieldOf w 0 32)

/-- The parts of a text between the separators. -/
def splitText (sep : Char) : List Char → List (List Char)
  | [] => [[]]
  | c :: cs =>
    if c = sep then [] :: splitText sep cs
    else
      match splitText sep cs with
      | [] => [[c]]
      | part :: parts => (c :: part) :: parts

/-- One group of the text form: exactly eight hexadecimal digits (R65). -/
def readGroup (cs : List Char) : Option Nat :=
  if cs.length = 8 then digitsValue 16 0 cs else none

/-- The command word of a text form, `none` for any other text (R65). -/
def readTextForm (cs : List Char) : Option CommandWord :=
  match splitText '_' cs with
  | [x, b, a, w0] =>
    match readGroup x, readGroup b, readGroup a, readGroup w0 with
    | some x, some b, some a, some w0 =>
      some (BitVec.ofNat 32 x ++ BitVec.ofNat 32 b ++ BitVec.ofNat 32 a ++ BitVec.ofNat 32 w0)
    | _, _, _, _ => none
  | _ => none

/-! ### Assembler lines -/

/-- Why a line is not assembled. -/
inductive AsmError where
  /-- The first word is no mnemonic of R66 and no pseudo-instruction of R67. -/
  | unknownMnemonic
  /-- The mnemonic takes another number of operands. -/
  | operandCount
  /-- An operand is no unsigned number and, for `r`, no register name. -/
  | badOperand
  /-- An operand does not fit the field that carries it. -/
  | doesNotFit
deriving DecidableEq, Repr

/-- A space or a tab. -/
def isBlank (c : Char) : Bool := c == ' ' || c == '\t'

/-- A text without the blanks at its two ends. -/
def trimText (cs : List Char) : List Char :=
  ((cs.dropWhile isBlank).reverse.dropWhile isBlank).reverse

/-- An unsigned number, decimal or `0x` hexadecimal (R66). -/
def readNumber : List Char → Option Nat
  | [] => none
  | ['0', 'x'] => none
  | '0' :: 'x' :: ds => digitsValue 16 0 ds
  | ds => digitsValue 10 0 ds

/-- The register names and their numbers (R21, R66). -/
def registerNames : List (List Char × Nat) :=
  [(['H', '0'], 0), (['H', '1'], 1), (['H', '2'], 2), (['H', '3'], 3), (['H', '4'], 4),
   (['P', 'L', 'E', 'N'], regPlen), (['S', 'T', 'A', 'T', 'U', 'S'], regStatus),
   (['C', 'H', 'U', 'N', 'K'], regChunk), (['P', 'A', 'D', 'C', 'A', 'P'], regPadcap)]

/-- A register operand: a name of the register map, or a number (R66). -/
def readRegisterName (cs : List Char) : Option Nat :=
  match registerNames.lookup cs with
  | some r => some r
  | none => readNumber cs

/-- A line's command when its operands are numbers, and they fit their fields. -/
def operandsFit (o : Option Instr) : Except AsmError (List Instr) :=
  match o with
  | none => .error .badOperand
  | some i => if i.wellFormed then .ok [i] else .error .doesNotFit

/-- A data value that fits 32 bits (R57). -/
def readValue (cs : List Char) : Except AsmError Word :=
  match readNumber cs with
  | none => .error .badOperand
  | some n => if fits32 n then .ok (BitVec.ofNat 32 n) else .error .doesNotFit

/-- `PACK src, count, dst`. -/
def assemblePack : List (List Char) → Except AsmError (List Instr)
  | [src, count, dst] =>
    operandsFit (do
      let a ← readNumber src
      let b ← readNumber count
      let x ← readNumber dst
      pure (.pack a b x))
  | _ => .error .operandCount

/-- `PAD L, M`, where M is one 64-bit operand. -/
def assemblePad : List (List Char) → Except AsmError (List Instr)
  | [len, msgLen] =>
    operandsFit (do
      let l ← readNumber len
      let m ← readNumber msgLen
      pure (.pad l m))
  | _ => .error .operandCount

/-- A command with one operand. -/
def assembleOne (read : List Char → Option Nat) (make : Nat → Instr) : List (List Char) → Except AsmError (List Instr)
  | [r] => operandsFit ((read r).map make)
  | _ => .error .operandCount

/-- A command with an operand and a data value. -/
def assembleTwo (read : List Char → Option Nat) (make : Nat → Word → Instr) :
    List (List Char) → Except AsmError (List Instr)
  | [r, v] => do
    let w ← readValue v
    operandsFit ((read r).map fun n => make n w)
  | _ => .error .operandCount

/-- A line without operands. -/
def assembleNone (is : List Instr) : List (List Char) → Except AsmError (List Instr)
  | [] => .ok is
  | _ => .error .operandCount

/-- A pseudo-instruction's commands, if every one of them fits. -/
def expandFitting (p : Pseudo) : Except AsmError (List Instr) :=
  if p.expand.all Instr.wellFormed then .ok p.expand else .error .doesNotFit

/-- `FINAL L, M` (R67). -/
def assembleFinal : List (List Char) → Except AsmError (List Instr)
  | [len, msgLen] =>
    match readNumber len, readNumber msgLen with
    | some l, some m => expandFitting (.final l m)
    | _, _ => .error .badOperand
  | _ => .error .operandCount

/-- `WRSTATE h0, h1, h2, h3, h4` (R67). -/
def assembleWrstate : List (List Char) → Except AsmError (List Instr)
  | [a, b, c, d, e] => do
    let h0 ← readValue a
    let h1 ← readValue b
    let h2 ← readValue c
    let h3 ← readValue d
    let h4 ← readValue e
    expandFitting (.wrstate ⟨h0, h1, h2, h3, h4⟩)
  | _ => .error .operandCount

/-- `CLRBLK j` (R67). -/
def assembleClrblk : List (List Char) → Except AsmError (List Instr)
  | [j] =>
    match readNumber j with
    | some n => expandFitting (.clrblk n)
    | none => .error .badOperand
  | _ => .error .operandCount

/-- The mnemonics (R66, R67) and how the operands of each are read. -/
def assemblers : List (List Char × (List (List Char) → Except AsmError (List Instr))) :=
  [(['N', 'O', 'P'], assembleNone [.nop]),
   (['I', 'N', 'I', 'T'], assembleNone [.init]),
   (['P', 'A', 'C', 'K'], assemblePack),
   (['P', 'A', 'D'], assemblePad),
   (['C', 'O', 'M', 'P', 'R', 'E', 'S', 'S'], assembleOne readNumber .compress),
   (['C', 'O', 'M', 'P', 'R', 'E', 'S', 'S', '.', 'P'], assembleNone [.compressP]),
   (['R', 'D', 'R', 'E', 'G'], assembleOne readRegisterName .rdreg),
   (['W', 'R', 'R', 'E', 'G'], assembleTwo readRegisterName .wrreg),
   (['R', 'D', 'S', 'B'], assembleOne readNumber .rdsb),
   (['W', 'R', 'S', 'B'], assembleTwo readNumber .wrsb),
   (['R', 'D', 'D', 'I', 'G', 'E', 'S', 'T'], assembleNone Pseudo.rddigest.expand),
   (['F', 'I', 'N', 'A', 'L'], assembleFinal),
   (['W', 'R', 'S', 'T', 'A', 'T', 'E'], assembleWrstate),
   (['C', 'L', 'R', 'B', 'L', 'K'], assembleClrblk)]

/-- The commands of one line (R66): a mnemonic and its operands separated by commas; `;` starts a comment; a line without
a mnemonic has no command. -/
def assembleLine (line : List Char) : Except AsmError (List Instr) :=
  let body := trimText (line.takeWhile (· != ';'))
  let mnemonic := body.takeWhile fun c => !isBlank c
  let rest := trimText (body.dropWhile fun c => !isBlank c)
  let operands := if rest = [] then [] else (splitText ',' rest).map trimText
  if body = [] then .ok []
  else
    match assemblers.lookup mnemonic with
    | some assemble => assemble operands
    | none => .error .unknownMnemonic

/-- A number as an operand: `0x` and eight hexadecimal digits. -/
def showNumber (n : Nat) : List Char := ['0', 'x'] ++ hexDigits 8 n

/-- PAD's `M` as an operand: `0x` and sixteen hexadecimal digits. -/
def showLong (n : Nat) : List Char := ['0', 'x'] ++ hexDigits 16 n

/-- The line of a command (R66). -/
def showInstr : Instr → List Char
  | .nop => ['N', 'O', 'P']
  | .init => ['I', 'N', 'I', 'T']
  | .pack src count dst =>
    ['P', 'A', 'C', 'K', ' '] ++ showNumber src ++ [',', ' '] ++ showNumber count ++ [',', ' '] ++ showNumber dst
  | .pad len msgLen => ['P', 'A', 'D', ' '] ++ showNumber len ++ [',', ' '] ++ showLong msgLen
  | .compress len => ['C', 'O', 'M', 'P', 'R', 'E', 'S', 'S', ' '] ++ showNumber len
  | .compressP => ['C', 'O', 'M', 'P', 'R', 'E', 'S', 'S', '.', 'P']
  | .rdreg r => ['R', 'D', 'R', 'E', 'G', ' '] ++ showNumber r
  | .wrreg r v => ['W', 'R', 'R', 'E', 'G', ' '] ++ showNumber r ++ [',', ' '] ++ showNumber v.toNat
  | .rdsb j => ['R', 'D', 'S', 'B', ' '] ++ showNumber j
  | .wrsb j v => ['W', 'R', 'S', 'B', ' '] ++ showNumber j ++ [',', ' '] ++ showNumber v.toNat

end Sys2Proof.Machine
end

