-- ==== Sys2Proof/Machine/StreamController.lean ====
section
/-! DEFINITION. The host contract (44_host_sequences.md): the Stream Controller's routines as lists of host actions, the
digest and the snapshot (R123 to R138). A routine is put at the head of `State.pending` to be run. -/

namespace Sys2Proof.Machine

/-- The two externally visible states of the source's Stream Controller (R126). -/
inductive ControllerState where
  /-- `ROFF mod C = 0`. -/
  | ready
  /-- `ROFF mod C != 0`. -/
  | accumulating
deriving DecidableEq, Repr

/-- The snapshot record (R135). -/
structure Snapshot where
  /-- The running offset ROFF. -/
  roff : Nat
  /-- The configured chunk size, read from CHUNK. -/
  chunk : Word
  /-- The padded-chunk capacity, read from PADCAP. -/
  padcap : Word
  /-- The live chaining-state words. -/
  h : Chain
  /-- The words that hold the staged bytes. -/
  sb : List Word
deriving DecidableEq, Repr

/-- The State Mismatch Error (R138, R146): the host's own, it changes nothing. -/
inductive StateMismatch where
  /-- The record's `chunk` or `padcap` differs from the block's. -/
  | stateMismatch
deriving DecidableEq, Repr

namespace Controller

/-- The host's state name (R126). It affects no behaviour. -/
def stateName (chunk roff : Nat) : ControllerState :=
  if roff % chunk = 0 then .ready else .accumulating

/-- The host issues a command. -/
def issueOf (i : Instr) : HostAction := .command (encode i)

/-- The host issues commands one after another. -/
def issueAll (is : List Instr) : List HostAction := is.map issueOf

/-- The command words among the host's actions, in order. -/
def commandsOf (l : List HostAction) : List CommandWord :=
  l.filterMap fun a => match a with
    | .command w => some w
    | .rst _ => none
    | .srcWrite _ _ => none
    | .setRoff _ => none

/-- `reset()` (R127). -/
def resetRoutine : List HostAction := [issueOf .init, .setRoff 0]

/-- The bytes one pass of `update`'s loop packs: `min(C - off, n - pos)`, where `off = ROFF mod C` (R128). -/
def fragment (chunk roff left : Nat) : Nat := min (chunk - roff % chunk) left

/-- The loop of `update` (R128) from `at_ = base + pos` with `left = n - pos` bytes to go. A pass packs at least one byte, so
`left` passes are enough (`fuel`). -/
def updateLoop (chunk : Nat) : (fuel at_ roff left : Nat) → List HostAction
  | 0, _, _, _ => []
  | fuel + 1, at_, roff, left =>
    if left = 0 then []
    else
      let k := fragment chunk roff left
      [issueOf (.pack at_ k (roff % chunk)), .setRoff (roff + k)] ++
        (if (roff + k) % chunk = 0 then [issueOf (.compress chunk)] else []) ++
        updateLoop chunk fuel (at_ + k) (roff + k) (left - k)

/-- `update(S)` for the `n` bytes the host has placed in SRC from `base` on (R128). -/
def updateRoutine (chunk base n roff : Nat) : List HostAction := updateLoop chunk n base roff n

/-- `update` of a list of bytes: the host places them in SRC at `base` first (R128, R140 duty 3). -/
def updateBytes (chunk base roff : Nat) (bytes : List Byte) : List HostAction :=
  .srcWrite base bytes :: updateRoutine chunk base bytes.length roff

/-- `finalize()` (R131). -/
def finalizeRoutine (chunk roff : Nat) : List HostAction :=
  issueAll [.pad (roff % chunk) roff, .compressP] ++ issueAll Pseudo.rddigest.expand ++ resetRoutine

/-- `digest(S)`: reset, update, finalize (R133). -/
def digestRoutine (chunk base : Nat) (bytes : List Byte) : List HostAction :=
  resetRoutine ++ updateBytes chunk base 0 bytes ++ finalizeRoutine chunk bytes.length

/-- A one-shot host's update from ROFF = 0 that keeps no count between whole chunks (R134). -/
def batchedUpdate (chunk base n : Nat) : List HostAction :=
  (List.range (n / chunk)).flatMap (fun i =>
      [issueOf (.pack (base + i * chunk) chunk 0), issueOf (.compress chunk)]) ++
    [.setRoff (n / chunk * chunk)] ++
    updateRoutine chunk (base + n / chunk * chunk) (n % chunk) (n / chunk * chunk)

/-- The raw digest: the 20 bytes `BE32(H[0]) ++ .. ++ BE32(H[4])` (R130). -/
def rawDigest (h : Chain) : List Byte := h.words.flatMap be32

/-- The digest words among the results of `finalize`: those of its five RDREGs, which follow PAD's and COMPRESS.P's (R131). -/
def finalizeDigest (results : List Word) : List Word := (results.drop 2).take 5

/-- How many words hold the staged bytes: `w = ceil((ROFF mod C) / 4)` (R135). -/
def stagedWords (chunk roff : Nat) : Nat := (roff % chunk + 3) / 4

/-- `getState()`'s commands (R136). -/
def getStateRoutine (chunk roff : Nat) : List HostAction :=
  issueAll [.rdreg regChunk, .rdreg regPadcap] ++ issueAll Pseudo.rddigest.expand ++
    issueAll ((List.range (stagedWords chunk roff)).map Instr.rdsb)

/-- The record that `getState()` makes of its commands' results (R135, R136), `none` for results of another shape. -/
def snapshotOf (roff : Nat) (results : List Word) : Option Snapshot :=
  match results with
  | chunk :: padcap :: h0 :: h1 :: h2 :: h3 :: h4 :: sb => some ⟨roff, chunk, padcap, ⟨h0, h1, h2, h3, h4⟩, sb⟩
  | _ => none

/-- `setState(x)` on a block of chunk size `chunk` (R137): a mismatch issues no command (R138), else H and the staged words
are written back and ROFF restored. -/
def setStateRoutine (cfg : Config) (x : Snapshot) : Except StateMismatch (List HostAction) :=
  if x.chunk.toNat ≠ cfg.chunk ∨ x.padcap.toNat ≠ cfg.padcap then .error .stateMismatch
  else .ok (issueAll (Pseudo.wrstate x.h).expand ++
    issueAll ((List.range x.sb.length).map fun j => .wrsb j (x.sb.getD j 0)) ++ [.setRoff x.roff])

end Controller

end Sys2Proof.Machine
end

