-- ==== Sys2Proof/Safety.lean ====
section
/-! DEFINITION. What a good run is (R13, R14), the invariant of the machine's states, the host's duty not to
compress stale bytes (R164) and the runs that keep all its duties (R140), and the message behind a run. -/

namespace Sys2Proof.Machine

/-- PLEN's legal values: "always 0 or a multiple of 64 that is `<= PADCAP`" (R25). -/
abbrev State.plenLegal (s : State) : Prop := s.plen.toNat % 64 = 0 ∧ s.plen.toNat ≤ s.cfg.padcap

/-- What holds of every state a run can reach, whatever the host does: the configuration is legal, the two memories are canonical and
lie in their address ranges (R22, R41), and PLEN and STATUS hold legal values (R25, R26). -/
structure State.Inv (s : State) : Prop where
  /-- The block exists (R1, R4). -/
  legal : s.cfg.legal = true
  /-- SB is in canonical form. -/
  sbWf : s.sb.wf
  /-- SB lists only addresses below PADCAP (R22). -/
  sbWithin : Memory.within s.cfg.padcap s.sb
  /-- SRC is in canonical form. -/
  srcWf : s.src.wf
  /-- SRC lists only indices below SRC_LEN (R4). -/
  srcWithin : Memory.within s.cfg.srcLen s.src
  /-- PLEN is legal (R25). -/
  plen : s.plenLegal
  /-- STATUS is legal (R26). -/
  status : legalStatus s.status = true

/-- `t` is where `n` steps from `s` lead, with ERR = 0: a claim about a run takes "STATUS.ERR = 0 at the end" as a premise (R13).
It says that no command has faulted since the run's last RST, or since `s` where the run has none. -/
def GoodRun (n : Nat) (s t : State) : Prop := core.run n s = .next t ∧ t.err = false

/-- The SB bytes a command writes when it runs: the first and how many (R23). -/
def stagedRegionOf : Instr → Nat × Nat
  | .pack _ count dst => (dst, count)
  | .pad len _ => (len, paddedLength len - len)
  | .wrsb j _ => (wordAddr j, 4)
  | .nop => (0, 0)
  | .init => (0, 0)
  | .compress _ => (0, 0)
  | .compressP => (0, 0)
  | .rdreg _ => (0, 0)
  | .wrreg _ _ => (0, 0)
  | .rdsb _ => (0, 0)

/-- How many SB bytes, from byte 0 on, a command compresses (R99, R100). -/
def compressedLengthOf (s : State) : Instr → Nat
  | .compress len => len
  | .compressP => s.plenLength
  | .nop => 0
  | .init => 0
  | .pack _ _ _ => 0
  | .pad _ _ => 0
  | .rdreg _ => 0
  | .wrreg _ _ => 0
  | .rdsb _ => 0
  | .wrsb _ _ => 0

/-- Byte `k` lies in one of the regions. -/
def covered (regions : List (Nat × Nat)) (k : Nat) : Bool :=
  regions.any fun r => decide (r.1 ≤ k) && decide (k < r.1 + r.2)

/-- The regions written since the last RST, after the host's next action (R164). -/
def stagedAfter (regions : List (Nat × Nat)) (s : State) : List (Nat × Nat) :=
  match s.pending with
  | [] => regions
  | .rst _ :: _ => []
  | .srcWrite _ _ :: _ => regions
  | .setRoff _ :: _ => regions
  | .command w :: _ =>
    match decode w with
    | .ok i => stagedRegionOf i :: regions
    | .error _ => regions

/-- The host's next action compresses no byte that nothing has written since the last RST (R164). While ERR = 1 a command compresses
nothing (R144). -/
def nextIsStaleFree (regions : List (Nat × Nat)) (s : State) : Bool :=
  match s.pending with
  | .command w :: _ =>
    match decode w with
    | .ok i => s.err || (List.range (compressedLengthOf s i)).all (covered regions)
    | .error _ => true
  | [] => true
  | .rst _ :: _ => true
  | .srcWrite _ _ :: _ => true
  | .setRoff _ :: _ => true

/-- `n` steps from `s` keep the host's duty of R164, where `regions` is what has been written since the last RST. It is a duty in runs
without a fault (R140 duty 2): a command that faults or is dropped writes nothing. -/
def staleFree : Nat → List (Nat × Nat) → State → Bool
  | 0, _, _ => true
  | n + 1, regions, s =>
    nextIsStaleFree regions s &&
      match step s with
      | .next t => staleFree n (stagedAfter regions s) t
      | .fault _ => true
      | .refused _ => true

/-- Two states on which the same actions have been taken since RSTs of different draws (R15): they differ in SB and in the
results read from it only, and where no command has faulted SB is the same on every region written since (R164). -/
structure AgreeOn (regions : List (Nat × Nat)) (s u : State) : Prop where
  /-- Everything but SB, the result word and the results received is the same. -/
  rest : u = { s with sb := u.sb, result := u.result, results := u.results }
  /-- With ERR = 0 every written byte of SB is the same. -/
  written : s.err = false → ∀ k, covered regions k = true → s.sb.read k = u.sb.read k

/-! ### The host's duties (R140) -/

/-- The SRC bytes a command reads: the first and how many (R41). -/
def sourceRegionOf : Instr → Nat × Nat
  | .pack src count _ => (src, count)
  | .nop => (0, 0)
  | .init => (0, 0)
  | .pad _ _ => (0, 0)
  | .compress _ => (0, 0)
  | .compressP => (0, 0)
  | .rdreg _ => (0, 0)
  | .wrreg _ _ => (0, 0)
  | .rdsb _ => (0, 0)
  | .wrsb _ _ => (0, 0)

/-- The SRC regions in which the host has placed message bytes, after its next action (R41). RST leaves SRC alone. -/
def placedAfter (placed : List (Nat × Nat)) (s : State) : List (Nat × Nat) :=
  match s.pending with
  | .srcWrite base bytes :: _ => (base, bytes.length) :: placed
  | [] => placed
  | .rst _ :: _ => placed
  | .setRoff _ :: _ => placed
  | .command _ :: _ => placed

/-- What R140 leaves to the host. Each field may be any predicate on states, so a host may change its mind between messages and
between commands (log 21, log 22). -/
structure HostIntent where
  /-- In this state "a standard SHA-1 length trailer is wanted" (duty 5). -/
  wantsTrailer : State → Bool
  /-- The host relies on the result of the command it issues in this state (duty 2). -/
  reliesOnResult : State → Bool

/-- Duty 2, first half: the operands of the host's next action, if it is a command, are inside its domain, so that it does not fault. An
earlier fault hides a later one (R144), so while ERR = 1 the command is tried with STATUS as RST leaves it. -/
def nextDoesNotFault (s : State) : Bool :=
  match s.pending with
  | .command _ :: _ =>
    match step (if s.err then s.setStatus 0x00000000#32 else s) with
    | .next t => !t.err
    | .fault _ => false
    | .refused _ => false
  | [] => true
  | .rst _ :: _ => true
  | .srcWrite _ _ :: _ => true
  | .setRoff _ :: _ => true

/-- Duty 2, second half: "if STATUS.ERR is ever 1, the host must assert RST before relying on any later result". -/
def nextIsReliable (intent : HostIntent) (s : State) : Bool :=
  match s.pending with
  | .command _ :: _ => !s.err || !intent.reliesOnResult s
  | [] => true
  | .rst _ :: _ => true
  | .srcWrite _ _ :: _ => true
  | .setRoff _ :: _ => true

/-- Duty 3: the host's next action, if it is a PACK, copies only bytes that the host has placed in SRC. While ERR = 1 it copies
nothing (R144). -/
def nextCopiesPlaced (placed : List (Nat × Nat)) (s : State) : Bool :=
  match s.pending with
  | .command w :: _ =>
    match decode w with
    | .ok i => s.err || (List.range (sourceRegionOf i).2).all fun k => covered placed ((sourceRegionOf i).1 + k)
    | .error _ => true
  | [] => true
  | .rst _ :: _ => true
  | .srcWrite _ _ :: _ => true
  | .setRoff _ :: _ => true

/-- Duty 5: ROFF is below 2^61 "where a standard SHA-1 length trailer is wanted"; elsewhere the duty asks nothing. -/
def roffBelowLimit (intent : HostIntent) (s : State) : Bool :=
  !intent.wantsTrailer s || decide (s.roff < 2305843009213693952)

/-- Each of `n` steps from `s` keeps the duties 2 to 5 of R140, and the state they lead to keeps duty 5. `staged` is what has been
written to SB since the last RST, `placed` where SRC holds message bytes. Every step is checked, so that neither an RST after a fault nor
a later update of ROFF hides a broken duty. -/
def dutiful (intent : HostIntent) : (n : Nat) → (staged placed : List (Nat × Nat)) → State → Bool
  | 0, _, _, s => roffBelowLimit intent s
  | n + 1, staged, placed, s =>
    roffBelowLimit intent s && nextDoesNotFault s && nextIsReliable intent s && nextCopiesPlaced placed s &&
      nextIsStaleFree staged s &&
      match step s with
      | .next t => dutiful intent n (stagedAfter staged s) (placedAfter placed s) t
      | .fault _ => false
      | .refused _ => false

/-- A run in which a host of this intent keeps its duties (R140), from a state whose SRC holds message bytes at `placed`. Duty 1, one
command at a time, is how `step` runs; duties 2 to 5 are kept at every step. DESIGN CHOICE (log 16): no byte of SB counts as written before
the run. -/
def DutifulRun (intent : HostIntent) (placed : List (Nat × Nat)) (n : Nat) (s t : State) : Prop :=
  GoodRun n s t ∧ dutiful intent n [] placed s = true

/-! ### The message behind a host's run -/

/-- The big-endian word at byte `4 * k` of a message (R40); bytes past its end read zero. -/
def messageWord (msg : List Byte) (k : Nat) : Word :=
  msg.getD (4 * k) 0 ++ msg.getD (4 * k + 1) 0 ++ msg.getD (4 * k + 2) 0 ++ msg.getD (4 * k + 3) 0

/-- The sixteen words of block `n` of a message (R91). -/
def messageBlock (msg : List Byte) (n : Nat) : List Word :=
  (List.range 16).map fun t => messageWord msg (16 * n + t)

/-- The chaining value after the first `count` blocks of a message (R101). -/
def hashBlocks (msg : List Byte) (count : Nat) (h : Chain) : Chain :=
  (List.range count).foldl (fun c n => compressBlock c (messageBlock msg n)) h

/-- A message with its padding: "the `0x80` terminator plus zero bytes plus 64-bit big-endian bit-length appended so the
final block(s) are a whole multiple of 64 bytes" (00_scope.md section 6). -/
def paddedMessage (msg : List Byte) : List Byte :=
  msg ++ [0x80#8] ++ List.replicate (paddedLength msg.length - msg.length - 9) 0x00#8 ++
    be64 (bitLengthTrailer msg.length)

/-- The digest of a message: the chaining value after every block of the padded message. No chunk size, no draw and no split of
the message enters it (R139). -/
def digestOf (msg : List Byte) : Chain :=
  hashBlocks (paddedMessage msg) (paddedLength msg.length / 64) Chain.iv

/-- What R129 says of the block and its host once `msg` is what `update` has taken since the last `reset`: ROFF counts it, H is the
chaining value after its whole chunks, and SB starts with the bytes after them. -/
structure Staged (s : State) (msg : List Byte) : Prop where
  /-- ROFF is the count of message bytes (R124). -/
  roff : s.roff = msg.length
  /-- "`H` is the chaining value after the first `C * (ROFF div C)` message bytes" (R129). -/
  chain : s.h = hashBlocks msg (s.cfg.chunk / 64 * (msg.length / s.cfg.chunk)) Chain.iv
  /-- "`SB[0 .. (ROFF mod C) - 1]` holds the last `ROFF mod C` message bytes, in order" (R129). -/
  bytes : ∀ i < msg.length % s.cfg.chunk, s.sb.read i = msg.getD (s.cfg.chunk * (msg.length / s.cfg.chunk) + i) 0

end Sys2Proof.Machine
end

