-- ==== Sys2Proof/Certificates/Slice0/Obligations.lean ====
section
/-! DEFINITION. The statements for the provers. Each docstring names the rules of spec/ the statement formalises. -/

open Sys2Proof Sys2Proof.Machine

/-! ### One command each: its words, its effect, its faults -/

/-- R109, R110: NOP's word is the one all zero, it returns zero, and it changes nothing, ERR or not. -/
def Obligations.NopChangesNothing : Prop :=
  (∀ w : CommandWord, w.extractLsb' 0 8 = 0x00#8 →
    decode w = if w = 0x0#128 then .ok .nop else .error .reservedField) ∧
  ∀ s : State, exec .nop s = .next { s with result := 0x00000000#32 }

/-- R111: INIT's word, and H set to the IV. -/
def Obligations.InitSetsChainToIv : Prop :=
  (∀ w : CommandWord, w.extractLsb' 0 8 = 0x01#8 →
    decode w = if w = 0x1#128 then .ok .init else .error .reservedField) ∧
  ∀ s : State, s.err = false →
    exec .init s = .next { s with
      h := ⟨0x67452301#32, 0xEFCDAB89#32, 0x98BADCFE#32, 0x10325476#32, 0xC3D2E1F0#32⟩
      result := 0x00000000#32 }

/-- R113: RDREG's words, the value of each of the nine registers, ERR or not, and REG_NUM for every other number. -/
def Obligations.RdregReturnsEachRegister : Prop :=
  (∀ w : CommandWord, w.extractLsb' 0 8 = 0x05#8 →
    decode w = if w.extractLsb' 8 24 = 0 ∧ w.extractLsb' 64 64 = 0
      then .ok (.rdreg (w.extractLsb' 32 32).toNat) else .error .reservedField) ∧
  ∀ s : State,
    exec (.rdreg 0) s = .next { s with result := s.h.h0 } ∧
    exec (.rdreg 1) s = .next { s with result := s.h.h1 } ∧
    exec (.rdreg 2) s = .next { s with result := s.h.h2 } ∧
    exec (.rdreg 3) s = .next { s with result := s.h.h3 } ∧
    exec (.rdreg 4) s = .next { s with result := s.h.h4 } ∧
    exec (.rdreg 5) s = .next { s with result := s.plen } ∧
    exec (.rdreg 6) s = .next { s with result := s.status } ∧
    exec (.rdreg 7) s = .next { s with result := BitVec.ofNat 32 s.cfg.chunk } ∧
    exec (.rdreg 8) s = .next { s with result := BitVec.ofNat 32 (s.cfg.chunk + 64) } ∧
    ∀ r, 8 < r → s.err = false →
      exec (.rdreg r) s = .next { s with status := 0x00000801#32, result := 0x00000000#32 }

/-- R115: WRREG's words, the one register it writes, REG_NUM above 8 and REG_READONLY for 5 to 8. -/
def Obligations.WrregWritesOneChainRegister : Prop :=
  (∀ w : CommandWord, w.extractLsb' 0 8 = 0x06#8 →
    decode w = if w.extractLsb' 8 24 = 0 ∧ w.extractLsb' 96 32 = 0
      then .ok (.wrreg (w.extractLsb' 32 32).toNat (w.extractLsb' 64 32)) else .error .reservedField) ∧
  ∀ (s : State) (v : Word), s.err = false →
    exec (.wrreg 0 v) s = .next { s with h := { s.h with h0 := v }, result := 0x00000000#32 } ∧
    exec (.wrreg 1 v) s = .next { s with h := { s.h with h1 := v }, result := 0x00000000#32 } ∧
    exec (.wrreg 2 v) s = .next { s with h := { s.h with h2 := v }, result := 0x00000000#32 } ∧
    exec (.wrreg 3 v) s = .next { s with h := { s.h with h3 := v }, result := 0x00000000#32 } ∧
    exec (.wrreg 4 v) s = .next { s with h := { s.h with h4 := v }, result := 0x00000000#32 } ∧
    (∀ r, 5 ≤ r → r ≤ 8 →
      exec (.wrreg r v) s = .next { s with status := 0x00000901#32, result := 0x00000000#32 }) ∧
    ∀ r, 8 < r →
      exec (.wrreg r v) s = .next { s with status := 0x00000801#32, result := 0x00000000#32 }

/-- R119, R118: RDSB's words, the big-endian word it returns, ERR or not, and SB_RANGE past the last word. -/
def Obligations.RdsbReturnsBigEndianWord : Prop :=
  (∀ w : CommandWord, w.extractLsb' 0 8 = 0x07#8 →
    decode w = if w.extractLsb' 8 24 = 0 ∧ w.extractLsb' 64 64 = 0
      then .ok (.rdsb (w.extractLsb' 32 32).toNat) else .error .reservedField) ∧
  ∀ (s : State) (j : Nat),
    (j < (s.cfg.chunk + 64) / 4 →
      exec (.rdsb j) s = .next { s with
        result := s.sb.read (4 * j) ++ s.sb.read (4 * j + 1) ++ s.sb.read (4 * j + 2) ++ s.sb.read (4 * j + 3) }) ∧
    ((s.cfg.chunk + 64) / 4 ≤ j → s.err = false →
      exec (.rdsb j) s = .next { s with status := 0x00000401#32, result := 0x00000000#32 })

/-- R121, R118: WRSB's words, the four bytes it writes and no other, and SB_RANGE past the last word. -/
def Obligations.WrsbWritesFourBytes : Prop :=
  (∀ w : CommandWord, w.extractLsb' 0 8 = 0x08#8 →
    decode w = if w.extractLsb' 8 24 = 0 ∧ w.extractLsb' 96 32 = 0
      then .ok (.wrsb (w.extractLsb' 32 32).toNat (w.extractLsb' 64 32)) else .error .reservedField) ∧
  ∀ (s : State) (j : Nat) (v : Word), s.err = false →
    (j < (s.cfg.chunk + 64) / 4 →
      ∃ m : Memory, exec (.wrsb j v) s = .next { s with sb := m, result := 0x00000000#32 } ∧
        m.read (4 * j) = v.extractLsb' 24 8 ∧ m.read (4 * j + 1) = v.extractLsb' 16 8 ∧
        m.read (4 * j + 2) = v.extractLsb' 8 8 ∧ m.read (4 * j + 3) = v.extractLsb' 0 8 ∧
        ∀ a, a < 4 * j ∨ 4 * j + 4 ≤ a → m.read a = s.sb.read a) ∧
    ((s.cfg.chunk + 64) / 4 ≤ j →
      exec (.wrsb j v) s = .next { s with status := 0x00000401#32, result := 0x00000000#32 })

/-- R71 to R74: PACK's words, the bytes it copies and no other, nothing at all for a count of zero, and SRC_RANGE before SB_RANGE. -/
def Obligations.PackCopiesSourceBytes : Prop :=
  (∀ w : CommandWord, w.extractLsb' 0 8 = 0x02#8 →
    decode w = if w.extractLsb' 8 24 = 0
      then .ok (.pack (w.extractLsb' 32 32).toNat (w.extractLsb' 64 32).toNat (w.extractLsb' 96 32).toNat)
      else .error .reservedField) ∧
  ∀ (s : State) (src count dst : Nat), s.err = false →
    exec (.pack src 0 dst) s = .next { s with result := 0x00000000#32 } ∧
    (0 < count → src + count ≤ s.cfg.srcLen → dst + count ≤ s.cfg.chunk + 64 →
      ∃ m : Memory, exec (.pack src count dst) s = .next { s with sb := m, result := 0x00000000#32 } ∧
        (∀ k, k < count → m.read (dst + k) = s.src.read (src + k)) ∧
        ∀ a, a < dst ∨ dst + count ≤ a → m.read a = s.sb.read a) ∧
    (0 < count → s.cfg.srcLen < src + count →
      exec (.pack src count dst) s = .next { s with status := 0x00000301#32, result := 0x00000000#32 }) ∧
    (0 < count → src + count ≤ s.cfg.srcLen → s.cfg.chunk + 64 < dst + count →
      exec (.pack src count dst) s = .next { s with status := 0x00000401#32, result := 0x00000000#32 })

/-- R69: the source byte that lands at SB address `4j + i` is bits `31-8i : 24-8i` of word `j`. -/
def Obligations.PackedBytesStandInWords : Prop :=
  ∀ (s t : State) (src count dst : Nat), s.err = false → exec (.pack src count dst) s = .next t → t.err = false →
    (∀ k, k < count → t.sb.read (dst + k) = s.src.read (src + k)) ∧
    ∀ k j i, k < count → i < 4 → dst + k = 4 * j + i →
      (t.sbWord j).extractLsb' (24 - 8 * i) 8 = s.src.read (src + k)

/-- R83 to R86 and R82: PAD's words, every byte of the layout it writes, PLEN, and PAD_RANGE with nothing written. -/
def Obligations.PadWritesPaddingAndPlen : Prop :=
  (∀ w : CommandWord, w.extractLsb' 0 8 = 0x03#8 →
    decode w = if w.extractLsb' 8 24 = 0
      then .ok (.pad (w.extractLsb' 32 32).toNat (w.extractLsb' 64 64).toNat) else .error .reservedField) ∧
  ∀ (s : State) (len msgLen p : Nat) (trailer : BitVec 64), s.err = false →
    p = 64 * ((len + 9 + 63) / 64) → trailer = BitVec.ofNat 64 (8 * msgLen) →
    (p ≤ s.cfg.chunk + 64 →
      ∃ m : Memory,
        exec (.pad len msgLen) s = .next { s with sb := m, plen := BitVec.ofNat 32 p, result := 0x00000000#32 } ∧
        (∀ a, a < len → m.read a = s.sb.read a) ∧
        m.read len = 0x80#8 ∧
        (∀ a, len < a → a < p - 8 → m.read a = 0x00#8) ∧
        (∀ i, i < 8 → m.read (p - 8 + i) = trailer.extractLsb' (56 - 8 * i) 8) ∧
        ∀ a, p ≤ a → m.read a = s.sb.read a) ∧
    (s.cfg.chunk + 64 < p →
      exec (.pad len msgLen) s = .next { s with status := 0x00000501#32, result := 0x00000000#32 })

/-- R82: on a legal configuration `P > PADCAP` is `L > C + 55`; there PAD faults with PAD_RANGE and writes nothing, elsewhere it
does not fault, so never under the host contract (`L <= C - 1`). -/
def Obligations.PadFaultsExactlyAboveRange : Prop :=
  ∀ (s : State) (len msgLen : Nat), s.cfg.legal = true → s.err = false →
    (s.cfg.chunk + 64 < paddedLength len ↔ s.cfg.chunk + 55 < len) ∧
    (s.cfg.chunk + 55 < len →
      exec (.pad len msgLen) s = .next { s with status := 0x00000501#32, result := 0x00000000#32 }) ∧
    (len ≤ s.cfg.chunk + 55 → ∃ t, exec (.pad len msgLen) s = .next t ∧ t.status = s.status ∧ t.h = s.h) ∧
    (len ≤ s.cfg.chunk - 1 → paddedLength len ≤ s.cfg.chunk + 64)

/-- R80, R87: the padded length is the least multiple of 64 that is at least `L + 9`, and the laws it obeys. -/
def Obligations.PaddedLengthIsLeast : Prop :=
  ∀ len : Nat,
    paddedLength len = 64 * ((len + 9 + 63) / 64) ∧ paddedLength len % 64 = 0 ∧ len + 9 ≤ paddedLength len ∧ paddedLength len ≤ len + 72 ∧
    (∀ q, q % 64 = 0 → len + 9 ≤ q → paddedLength len ≤ q) ∧
    (len % 64 ≤ 55 → paddedLength len = 64 * (len / 64) + 64) ∧
    (56 ≤ len % 64 → paddedLength len = 64 * (len / 64) + 128) ∧
    paddedLength 0 = 64

/-- R88: the trailer is exact below 2^61 bytes, and at 512 MiB its words are 1 and 0. -/
def Obligations.TrailerExactBelowLimit : Prop :=
  (∀ msgLen, msgLen < 2 ^ 61 → (bitLengthTrailer msgLen).toNat = 8 * msgLen) ∧
  (bitLengthTrailer (2 ^ 29)).extractLsb' 32 32 = 0x00000001#32 ∧
  (bitLengthTrailer (2 ^ 29)).extractLsb' 0 32 = 0x00000000#32

/-- R81's formula: for a 64-bit `M`, `T[63:32] = M[60:29]` and `T[31:0] = M[28:0] : 0b000`. -/
def Obligations.TrailerIsShiftedLength : Prop :=
  ∀ msgLen : BitVec 64,
    (bitLengthTrailer msgLen.toNat).extractLsb' 32 32 = msgLen.extractLsb' 29 32 ∧
    (bitLengthTrailer msgLen.toNat).extractLsb' 0 32 = msgLen.extractLsb' 0 29 ++ 0#3

/-- R100, R102, R103: the words of COMPRESS and COMPRESS.P, the blocks chained in increasing order, LEN_ALIGN before LEN_RANGE, and no fault
of COMPRESS.P where PLEN is legal. -/
def Obligations.CompressChainsBlocks : Prop :=
  (∀ w : CommandWord, w.extractLsb' 0 8 = 0x04#8 →
    decode w =
      if w.extractLsb' 8 24 = 0 ∧ w.extractLsb' 64 64 = 0 then .ok (.compress (w.extractLsb' 32 32).toNat)
      else if w = 0x104#128 then .ok .compressP else .error .reservedField) ∧
  ∀ s : State, s.err = false →
    exec .compressP s = exec (.compress s.plen.toNat) s ∧
    (s.plenLegal → ∃ c : Chain, exec .compressP s = .next { s with h := c, result := 0x00000000#32 }) ∧
    exec (.compress 0) s = .next { s with result := 0x00000000#32 } ∧
    (∀ n, 64 * (n + 1) ≤ s.cfg.chunk + 64 →
      ∃ c : Chain, exec (.compress (64 * n)) s = .next { s with h := c, result := 0x00000000#32 } ∧
        exec (.compress (64 * (n + 1))) s = .next { s with
          h := compressBlock c ((List.range 16).map fun t => s.sbWord (16 * n + t)), result := 0x00000000#32 }) ∧
    (∀ len, len % 64 ≠ 0 →
      exec (.compress len) s = .next { s with status := 0x00000601#32, result := 0x00000000#32 }) ∧
    ∀ len, len % 64 = 0 → s.cfg.chunk + 64 < len →
      exec (.compress len) s = .next { s with status := 0x00000701#32, result := 0x00000000#32 }

/-- R99: COMPRESS.P is COMPRESS with the length PLEN holds before the step: the padded length after a PAD that did not fault, so exactly the
padded region; no block where PLEN is 0, as after RST. -/
def Obligations.CompressPTakesPlenAsLength : Prop :=
  (∀ s : State, exec .compressP s = exec (.compress s.plen.toNat) s) ∧
  (∀ s : State, s.err = false → s.plen = 0x00000000#32 → exec .compressP s = .next { s with result := 0x00000000#32 }) ∧
  (∀ (s : State) (sbInit : Memory), (s.assertReset sbInit).plen = 0x00000000#32) ∧
  ∀ (s t : State) (len msgLen : Nat), s.cfg.legal = true → s.err = false → exec (.pad len msgLen) s = .next t → t.err = false →
    t.plen.toNat = paddedLength len ∧ exec .compressP t = exec (.compress (paddedLength len)) t

/-- R103 and R25: where PLEN is legal COMPRESS.P does not fault, and H is what the blocks of the padded region give. -/
def Obligations.CompressPCompletesOnLegalPlen : Prop :=
  ∀ s : State, s.err = false → s.plen.toNat % 64 = 0 → s.plen.toNat ≤ s.cfg.chunk + 64 →
    exec .compressP s = .next { s with
      h := (List.range (s.plen.toNat / 64)).foldl
        (fun c n => compressBlock c ((List.range 16).map fun t => s.sbWord (16 * n + t))) s.h
      result := 0x00000000#32 }

/-! ### The block compression function -/

/-- R91, R92: the schedule has 80 words, the first sixteen are the block's (SB's big-endian words, where the block is in SB), each later
one follows the recurrence. -/
def Obligations.ScheduleFollowsRecurrence : Prop :=
  (∀ (s : State) (n t : Nat), t < 16 → (schedule (blockWords s.sb n)).getD t 0 = s.sbWord (16 * n + t)) ∧
  ∀ block : List Word, block.length = 16 →
    (schedule block).length = 80 ∧
    (∀ t, t < 16 → (schedule block).getD t 0 = block.getD t 0) ∧
    ∀ t, 16 ≤ t → t < 80 →
      (schedule block).getD t 0 =
        rotl ((schedule block).getD (t - 3) 0 ^^^ (schedule block).getD (t - 8) 0 ^^^
          (schedule block).getD (t - 14) 0 ^^^ (schedule block).getD (t - 16) 0) 1

/-- R97, R98: the working variables start at H, take 80 rounds in order, and are added back into H. -/
def Obligations.CompressBlockRunsEightyRounds : Prop :=
  ∀ (h : Chain) (block : List Word), block.length = 16 →
    ∃ v : Nat → Working,
      v 0 = ⟨h.h0, h.h1, h.h2, h.h3, h.h4⟩ ∧
      (∀ t, t < 80 → v (t + 1) =
        ⟨rotl (v t).a 5 + roundFunction t (v t).b (v t).c (v t).d + (v t).e + (schedule block).getD t 0 + roundConstant t,
         (v t).a, rotl (v t).b 30, (v t).c, (v t).d⟩) ∧
      compressBlock h block =
        ⟨h.h0 + (v 80).a, h.h1 + (v 80).b, h.h2 + (v 80).c, h.h3 + (v 80).d, h.h4 + (v 80).e⟩

/-- R93 to R96: the round functions, which bit of `b`, `c`, `d` each takes, the equal forms the rules name, and the four round constants. -/
def Obligations.RoundFunctionsAndConstants : Prop :=
  ∀ (t : Nat) (b c d : Word),
    (t < 20 → roundFunction t b c d = (b &&& c) ||| (~~~b &&& d) ∧
      (∀ i, i < 32 → (roundFunction t b c d).getLsbD i = if b.getLsbD i then c.getLsbD i else d.getLsbD i) ∧
      roundFunction t b c d = (b &&& c) ^^^ (~~~b &&& d) ∧ roundFunction t b c d = (b &&& c) + (~~~b &&& d) ∧
      roundConstant t = 0x5A827999#32) ∧
    (20 ≤ t → t < 40 → roundFunction t b c d = b ^^^ c ^^^ d ∧ roundConstant t = 0x6ED9EBA1#32) ∧
    (40 ≤ t → t < 60 → roundFunction t b c d = (b &&& c) ||| (b &&& d) ||| (c &&& d) ∧
      (∀ i, i < 32 → (roundFunction t b c d).getLsbD i =
        decide (2 ≤ (b.getLsbD i).toNat + (c.getLsbD i).toNat + (d.getLsbD i).toNat)) ∧
      roundFunction t b c d = (b &&& c) ||| (d &&& (b ||| c)) ∧ roundConstant t = 0x8F1BBCDC#32) ∧
    (60 ≤ t → t < 80 → roundFunction t b c d = b ^^^ c ^^^ d ∧ roundConstant t = 0xCA62C1D6#32)

/-- R7's `rotl`: bit `i` of the rotated word is bit `i - n` modulo 32. -/
def Obligations.RotlMovesEachBit : Prop :=
  ∀ (x : Word) (n i : Nat), 0 < n → n < 32 → i < 32 → (rotl x n).getLsbD i = x.getLsbD ((i + (32 - n)) % 32)

/-- R104, R106: H after a COMPRESS depends only on H and the compressed bytes before it. -/
def Obligations.CompressReadsOnlyItsBlocks : Prop :=
  ∀ (s u t : State) (len : Nat), s.err = false → u.err = false → s.h = u.h →
    len ≤ s.cfg.chunk + 64 → len ≤ u.cfg.chunk + 64 → (∀ a, a < len → s.sb.read a = u.sb.read a) →
    exec (.compress len) s = .next t → t.err = false →
    exec (.compress len) u = .next { u with h := t.h, result := 0x00000000#32 }

/-- R101: `k` commands COMPRESS 64, each over the next block's bytes, leave the H of one COMPRESS of `64 * k`. -/
def Obligations.SeparateBlocksEqualOneBatch : Prop :=
  ∀ (s : State) (k : Nat) (sbs : Nat → Memory) (hs : Nat → Chain), s.err = false → 64 * k ≤ s.cfg.chunk + 64 →
    (∀ n, n < k → ∀ i, i < 64 → (sbs n).read i = s.sb.read (64 * n + i)) →
    hs 0 = s.h →
    (∀ n, n < k → exec (.compress 64) { s with h := hs n, sb := sbs n } =
      .next { s with h := hs (n + 1), sb := sbs n, result := 0x00000000#32 }) →
    exec (.compress (64 * k)) s = .next { s with h := hs k, result := 0x00000000#32 }

/-- R108: the worked example of COMPRESS. -/
def Obligations.WorkedExampleAbcBlock : Prop :=
  ∀ s : State, s.err = false →
    s.h = ⟨0x67452301#32, 0xEFCDAB89#32, 0x98BADCFE#32, 0x10325476#32, 0xC3D2E1F0#32⟩ →
    s.sbWord 0 = 0x61626380#32 → (∀ j, 1 ≤ j → j ≤ 14 → s.sbWord j = 0x00000000#32) → s.sbWord 15 = 0x00000018#32 →
    decode 0x00000000000000000000004000000004#128 = .ok (.compress 64) ∧
    exec (.compress 64) s = .next { s with
      h := ⟨0xa9993e36#32, 0x4706816a#32, 0xba3e2571#32, 0x7850c26c#32, 0x9cd0d89d#32⟩
      result := 0x00000000#32 }

/-! ### Faults -/

/-- R141: a rule that raises a fault sets STATUS if ERR = 0, keeps it if ERR = 1, returns zero and changes nothing else; and whatever the
command word, STATUS changes in no other way. -/
def Obligations.FaultChangesOnlyStatus : Prop :=
  (∀ (isRead : Bool) (cause : Cause) (s : State),
    s.finish isRead (.raise cause) = .next { s with
      status := if s.err then s.status else 0x00000001#32 ||| (BitVec.ofNat 32 cause.code <<< 8)
      result := 0x00000000#32 }) ∧
  ∀ (w : CommandWord) (s t : State), runCommand w s = .next t → t.status ≠ s.status →
    s.err = false ∧ ∃ c, 1 ≤ c ∧ c ≤ 9 ∧
      t = { s with status := 0x00000001#32 ||| (BitVec.ofNat 32 c <<< 8), result := 0x00000000#32 }

/-- R55: RDREG returns the register's value and RDSB the SB word; every other command, and every one that faults or is
dropped, returns zero. -/
def Obligations.OnlyReadsReturnWords : Prop :=
  ∀ (w : CommandWord) (s t : State), runCommand w s = .next t →
    t.result = match decode w with
      | .ok (.rdreg r) => (s.readRegister r).getD 0x00000000#32
      | .ok (.rdsb j) => if j < (s.cfg.chunk + 64) / 4 then s.sbWord j else 0x00000000#32
      | _ => 0x00000000#32

/-- R144's ERR = 1 half: RDREG and RDSB that pass their checks return their result; every other command word is dropped
with result zero; no state changes. -/
def Obligations.ErrorStateDropsCommands : Prop :=
  ∀ s : State, s.err = true →
    (∀ w i, decode w = .ok i → (∀ r, i ≠ .rdreg r) → (∀ j, i ≠ .rdsb j) →
      runCommand w s = .next { s with result := 0x00000000#32 }) ∧
    (∀ w c, decode w = .error c → runCommand w s = .next { s with result := 0x00000000#32 }) ∧
    (∀ r v, s.readRegister r = some v → exec (.rdreg r) s = .next { s with result := v }) ∧
    (∀ r, s.readRegister r = none → exec (.rdreg r) s = .next { s with result := 0x00000000#32 }) ∧
    (∀ j, j < (s.cfg.chunk + 64) / 4 → exec (.rdsb j) s = .next { s with result := s.sbWord j }) ∧
    ∀ j, (s.cfg.chunk + 64) / 4 ≤ j → exec (.rdsb j) s = .next { s with result := 0x00000000#32 }

/-- R26, R150: a step changes STATUS only by RST, which clears it, or by the first fault; while ERR = 1 only RST ends the error state. -/
def Obligations.OnlyResetClearsStatus : Prop :=
  ∀ s t : State, step s = .next t →
    (t.status = s.status) ∨
    (∃ d rest, s.pending = .rst d :: rest ∧ t.status = 0x00000000#32) ∨
    (s.err = false ∧ t.err = true ∧ ∃ w rest, s.pending = .command w :: rest)

/-- R60, R62: an opcode above 8 faults with cause 1 whatever the other fields hold; with a legal opcode, any RSV bit faults
with cause 2, and so does P with an opcode other than 4. -/
def Obligations.ReservedEncodingsFault : Prop :=
  ∀ (w : CommandWord) (s : State), s.err = false →
    (0x08#8 < w.extractLsb' 0 8 →
      runCommand w s = .next { s with status := 0x00000101#32, result := 0x00000000#32 }) ∧
    (w.extractLsb' 0 8 ≤ 0x08#8 → w.extractLsb' 9 23 ≠ 0 →
      runCommand w s = .next { s with status := 0x00000201#32, result := 0x00000000#32 }) ∧
    (w.extractLsb' 0 8 ≤ 0x08#8 → w.getLsbD 8 = true → w.extractLsb' 0 8 ≠ 0x04#8 →
      runCommand w s = .next { s with status := 0x00000201#32, result := 0x00000000#32 })

/-! ### Encoding -/

/-- Decoding an encoded command gives it back, for every command whose operands fit their fields (R53, R56, R57, R58). -/
def Obligations.DecodeOfEncode : Prop :=
  ∀ i : Instr, i.wellFormed = true → decode (encode i) = .ok i

/-- R61: a word that decodes is the one encoding of its command, and the command fits its fields; any other word with a legal opcode
is a RESERVED_FIELD fault. -/
def Obligations.LegalWordIsItsEncoding : Prop :=
  ∀ w : CommandWord,
    (∀ i, decode w = .ok i → i.wellFormed = true ∧ encode i = w) ∧
    ∀ c, decode w = .error c → c = if w.extractLsb' 0 8 ≤ 0x08#8 then .reservedField else .illegalCmd

/-- One written-out word for each command. Eight are words of the programs of 95_test_vectors.md section 3; NOP's is R109's, and that of
RDSB 31 is written from the format and the opcode table (R53, R56). -/
def Obligations.SampleWordsDecode : Prop :=
  decode 0x00000000000000000000000000000000#128 = .ok .nop ∧
  decode 0x00000000000000000000000000000001#128 = .ok .init ∧
  decode 0x000000050000003b0000000500000002#128 = .ok (.pack 5 59 5) ∧
  decode 0x00000000000000460000000600000003#128 = .ok (.pad 6 70) ∧
  decode 0x00000000000000000000004000000004#128 = .ok (.compress 64) ∧
  decode 0x00000000000000000000000000000104#128 = .ok .compressP ∧
  decode 0x00000000000000000000000800000005#128 = .ok (.rdreg 8) ∧
  decode 0x00000000674523010000000000000006#128 = .ok (.wrreg 0 0x67452301#32) ∧
  decode 0x00000000000000000000001f00000007#128 = .ok (.rdsb 31) ∧
  decode 0x00000000616263640000000000000008#128 = .ok (.wrsb 0 0x61626364#32)

/-! ### The step -/

/-- A step whose next action is a command word that decodes runs `exec` of the command (R54, R64): the action is taken, the command index advances
by one (R33), and the result word the command returns joins the results (R55). The list in State is the model's choice (log 6). -/
def Obligations.StepRunsDecodedCommand : Prop :=
  ∀ (s : State) (w : CommandWord) (i : Instr) (rest : List HostAction), s.cfg.legal = true →
    s.pending = .command w :: rest → decode w = .ok i →
    ∃ t, exec i { s with pending := rest, pc := s.pc + 1 } = .next t ∧
      step s = .next { t with results := s.results ++ [t.result] } ∧ t.pc = s.pc + 1 ∧ t.pending = rest

/-- R12: every command word has a next state, from every state. -/
def Obligations.EveryCommandEnds : Prop :=
  ∀ (w : CommandWord) (s : State), ∃ t, runCommand w s = .next t

/-- The invariant of `State.Inv` is kept by every step, whatever the host's action. The canonical form of the two memories is the model's
own (log 1); the ranges and legal values are those of R4, R22, R25 and R26. -/
def Obligations.StepKeepsInvariant : Prop :=
  ∀ s t : State, s.Inv → step s = .next t → t.Inv

/-- The invariant holds after reset, and after the construction of any legal block with any draw. The configuration and the draw of
`State.reset` are the model's choice (log 1, log 2). -/
def Obligations.ResetMeetsInvariant : Prop :=
  State.reset.Inv ∧
  ∀ (cfg : Config) (sbInit : Memory), cfg.legal = true →
    ∃ t, State.construct cfg sbInit = .next t ∧ t.Inv ∧ t.cfg = cfg

/-- R158: what RST sets, from every state and for every draw. The host's own fields stay (log 7). -/
def Obligations.RstSetsResetValues : Prop :=
  ∀ (s : State) (sbInit : Memory) (rest : List HostAction), s.cfg.legal = true → s.pending = .rst sbInit :: rest →
    ∃ m : Memory, step s = .next { s with
        h := ⟨0x67452301#32, 0xEFCDAB89#32, 0x98BADCFE#32, 0x10325476#32, 0xC3D2E1F0#32⟩
        plen := 0x00000000#32
        status := 0x00000000#32
        sb := m
        pending := rest } ∧
      ∀ k, k < s.cfg.chunk + 64 → m.read k = sbInit.read k

/-- R145: with a chunk size that is not a positive multiple of 64 or exceeds `2^32 - 128` nothing runs and nothing is constructed. -/
def Obligations.IllegalChunkIsRefused : Prop :=
  ∀ cfg : Config, (cfg.chunk = 0 ∨ cfg.chunk % 64 ≠ 0 ∨ 2 ^ 32 - 128 < cfg.chunk) →
    (∀ s : State, s.cfg = cfg → step s = .refused .configurationError) ∧
    ∀ sbInit, State.construct cfg sbInit = .refused .configurationError

/-- R157: without a command or RST the block's H, SB, PLEN and STATUS hold. That a step with no action left is a step, and answers the
same state, is the model's choice (log 10), since R14 ends a run there. -/
def Obligations.BlockHoldsBetweenCommands : Prop :=
  ∀ s : State, s.cfg.legal = true →
    (s.pending = [] → step s = .next s) ∧
    ∀ t, step s = .next t → (∀ w rest, s.pending ≠ .command w :: rest) → (∀ d rest, s.pending ≠ .rst d :: rest) →
      t.h = s.h ∧ t.sb = s.sb ∧ t.plen = s.plen ∧ t.status = s.status

/-! ### Rules about the whole machine -/

/-- R19, R23, R25: which commands change H, SB and PLEN. -/
def Obligations.OnlyItsWritersChangeState : Prop :=
  ∀ (i : Instr) (s t : State), exec i s = .next t →
    (t.h ≠ s.h → i = .init ∨ i = .compressP ∨ (∃ len, i = .compress len) ∨ ∃ r v, r ≤ 4 ∧ i = .wrreg r v) ∧
    (t.sb ≠ s.sb → (∃ a b c, i = .pack a b c) ∨ (∃ l m, i = .pad l m) ∨ ∃ j v, i = .wrsb j v) ∧
    (t.plen ≠ s.plen → ∃ l m, i = .pad l m)

/-- R12, R35, R41: the meaning of a command neither reads nor writes the host's ROFF, and writes neither SRC nor the configuration. That it
neither reads nor writes the host's list, the command index and the results received is the model's own split of `step` and `exec` (log 6,
log 9): each command issued does advance the index (R33), and `step` does that, by `State.issue`, before `exec` runs the command. -/
def Obligations.CommandsLeaveHostStateAlone : Prop :=
  ∀ (i : Instr) (s t : State) (roff pc : Nat) (pending : List HostAction) (results : List Word),
    exec i s = .next t →
    t.roff = s.roff ∧ t.src = s.src ∧ t.cfg = s.cfg ∧ t.pending = s.pending ∧ t.pc = s.pc ∧ t.results = s.results ∧
    exec i { s with roff := roff, pc := pc, pending := pending, results := results } =
      .next { t with roff := roff, pc := pc, pending := pending, results := results }

/-- R41: PACK reads the bytes `src .. src+count-1` of SRC and no others, and no other command reads SRC. -/
def Obligations.OnlyPackReadsItsSourceBytes : Prop :=
  ∀ (i : Instr) (s t : State) (src' : Memory), exec i s = .next t →
    (∀ a count dst, i = .pack a count dst → ∀ k, k < count → src'.read (a + k) = s.src.read (a + k)) →
    exec i { s with src := src' } = .next { t with src := src' }

/-- R48: RDREG, RDSB and NOP change no state but, when they fault, STATUS; every command but COMPRESS leaves the same state issued twice as issued once;
COMPRESS does not. -/
def Obligations.RepeatedCommandsAgree : Prop :=
  (∀ (i : Instr) (s t u : State), (∀ len, i ≠ .compress len) → i ≠ .compressP →
    exec i s = .next t → exec i t = .next u → u = t) ∧
  (∀ (i : Instr) (s t : State), (i = .nop ∨ (∃ r, i = .rdreg r) ∨ ∃ j, i = .rdsb j) → exec i s = .next t →
    t.err = s.err → t = { s with result := t.result }) ∧
  ∃ s t u : State, exec (.compress 64) s = .next t ∧ exec (.compress 64) t = .next u ∧ u.h ≠ t.h

/-- R37 to R39, R122: after a WRSB the word reads back as written and every other word as before. -/
def Obligations.WrittenWordReadsBack : Prop :=
  ∀ (s t : State) (j k : Nat) (v : Word), s.err = false → j < (s.cfg.chunk + 64) / 4 → k < (s.cfg.chunk + 64) / 4 →
    exec (.wrsb j v) s = .next t →
    exec (.rdsb k) t = .next { t with result := if k = j then v else s.sbWord k }

/-- R51: a step of one block leaves every other block where it was. -/
def Obligations.OtherBlocksUntouched : Prop :=
  ∀ (k n : Nat) (blocks : List State), n ≠ k → (stepBlock k blocks)[n]? = blocks[n]?

/-! ### Text forms -/

/-- R65: reading the text form of a command word gives the word back. -/
def Obligations.TextFormReadsBack : Prop :=
  (∀ w : CommandWord, readTextForm (textForm w) = some w ∧ (textForm w).length = 35) ∧
  textForm 0x00000000000000000000000000000104#128 =
    ['0', '0', '0', '0', '0', '0', '0', '0', '_', '0', '0', '0', '0', '0', '0', '0', '0', '_',
     '0', '0', '0', '0', '0', '0', '0', '0', '_', '0', '0', '0', '0', '0', '1', '0', '4']

/-- R66: assembling the line of a well-formed command gives the command. How the model spells a number is its choice (log 15). -/
def Obligations.AssemblerReadsBack : Prop :=
  ∀ i : Instr, i.wellFormed = true → assembleLine (showInstr i) = .ok [i]

/-! ### The host contract -/

/-- R67, R130: RDDIGEST returns the five chaining words in order and changes nothing else, and the raw digest is their 20 bytes. -/
def Obligations.RddigestReturnsChain : Prop :=
  ∀ s : State, s.cfg.legal = true → s.pending = Controller.issueAll Pseudo.rddigest.expand →
    core.run 5 s = .next { s with
      pending := []
      pc := s.pc + 5
      result := s.h.h4
      results := s.results ++ [s.h.h0, s.h.h1, s.h.h2, s.h.h3, s.h.h4] } ∧
    Controller.rawDigest s.h = be32 s.h.h0 ++ be32 s.h.h1 ++ be32 s.h.h2 ++ be32 s.h.h3 ++ be32 s.h.h4 ∧
    (Controller.rawDigest s.h).length = 20

/-- R129: an update of `msg'` after `msg` leaves the block and its host as R129 says for `msg ++ msg'`, and no command faults. -/
def Obligations.UpdateStagesMessage : Prop :=
  ∀ (s : State) (msg more : List Byte) (base : Nat), s.Inv → s.err = false → Staged s msg →
    base + more.length ≤ s.cfg.srcLen →
    s.pending = Controller.updateBytes s.cfg.chunk base s.roff more →
    ∃ t, core.run s.pending.length s = .next t ∧ t.pending = [] ∧ t.err = false ∧ t.cfg = s.cfg ∧ Staged t (msg ++ more)

/-- R128: an update of no bytes issues no command, and the host's write of no bytes before it changes nothing, whatever the base, so it
takes its place in the list and cannot stop. That such a write is no stop at a base above SRC_LEN is the model's choice (log 11). -/
def Obligations.ZeroLengthUpdateIssuesNothing : Prop :=
  (∀ chunk base roff : Nat, Controller.updateRoutine chunk base 0 roff = []) ∧
  ∀ (s : State) (base : Nat) (rest : List HostAction), s.cfg.legal = true →
    s.pending = Controller.updateBytes s.cfg.chunk base s.roff [] ++ rest → step s = .next { s with pending := rest }

/-- R131: finalize returns the digest of the message, whatever the chunk size and however the message was split, and leaves
the block and its host as `reset` does. For lengths of 2^61 to 2^64 - 1 `digestOf` has the trailer that PAD writes, 8 * M modulo 2^64, as the
model reads R81 (log 19); a length below 2^61 gives the standard SHA-1 digest. -/
def Obligations.FinalizeReturnsDigest : Prop :=
  ∀ (s : State) (msg : List Byte), s.Inv → s.err = false → Staged s msg → msg.length < 2 ^ 64 →
    s.pending = Controller.finalizeRoutine s.cfg.chunk s.roff →
    ∃ t out, core.run s.pending.length s = .next t ∧ t.pending = [] ∧ t.err = false ∧
      t.results = s.results ++ out ∧ Controller.finalizeDigest out = (digestOf msg).words ∧
      t.roff = 0 ∧ t.h = Chain.iv

/-- R133: the one-shot routine returns the digest of its bytes, from any state without a fault, whatever H, SB, PLEN, ROFF and SRC held. -/
def Obligations.DigestRoutineReturnsDigest : Prop :=
  ∀ (s : State) (base : Nat) (bytes : List Byte), s.cfg.legal = true → s.err = false → base + bytes.length ≤ s.cfg.srcLen →
    s.pending = Controller.digestRoutine s.cfg.chunk base bytes →
    ∃ t zeros, core.run s.pending.length s = .next t ∧ t.pending = [] ∧ t.err = false ∧ t.roff = 0 ∧ t.h = Chain.iv ∧
      t.results = s.results ++ zeros ++ (digestOf bytes).words ++ [0x00000000#32]

/-- R140, R164: the one-shot routine keeps every duty of the host, at every step and with nothing placed in SRC or staged in SB before it: no
command faults or is issued while ERR = 1, every PACK copies bytes it has placed, every byte compressed has been written, and ROFF is below
2^61 wherever the host wants a standard length trailer. The ROFF found at the start matters only to a host that wants one. That nothing counts
as staged before the run is the model's choice (log 16). -/
def Obligations.DigestRoutineKeepsDuties : Prop :=
  ∀ (intent : HostIntent) (s : State) (base : Nat) (bytes : List Byte), s.cfg.legal = true → s.err = false →
    ((∃ u, intent.wantsTrailer u = true) → s.roff < 2 ^ 61) →
    base + bytes.length ≤ s.cfg.srcLen → s.pending = Controller.digestRoutine s.cfg.chunk base bytes →
    ∃ t, DutifulRun intent [] s.pending.length s t

/-- R136, R137: getState leaves its block's H, SB, PLEN and STATUS and the host's ROFF as they were, and the snapshot it makes, restored by
setState on another block of the same configuration, leaves that one's H, ROFF and staged bytes as the first one's are. -/
def Obligations.SnapshotRestoresStaged : Prop :=
  ∀ (e u : State) (msg : List Byte), e.Inv → e.err = false → Staged e msg → u.Inv → u.err = false → u.cfg = e.cfg →
    e.pending = Controller.getStateRoutine e.cfg.chunk e.roff →
    ∃ t out x routine, core.run e.pending.length e = .next t ∧ t.h = e.h ∧ t.sb = e.sb ∧ t.plen = e.plen ∧ t.status = e.status ∧
      t.roff = e.roff ∧ t.results = e.results ++ out ∧ Controller.snapshotOf e.roff out = some x ∧
      Controller.setStateRoutine u.cfg x = .ok routine ∧
      (u.pending = routine → ∃ v, core.run routine.length u = .next v ∧ v.err = false ∧ v.cfg = u.cfg ∧ Staged v msg)

/-- R138: a record whose chunk size or capacity differs makes setState signal the State Mismatch Error, with no command to issue. -/
def Obligations.MismatchIssuesNoCommand : Prop :=
  ∀ (cfg : Config) (x : Snapshot), x.chunk.toNat ≠ cfg.chunk ∨ x.padcap.toNat ≠ cfg.chunk + 64 →
    Controller.setStateRoutine cfg x = .error .stateMismatch

/-- R134: the one-shot host's batched update issues the commands of the streaming update. -/
def Obligations.BatchedUpdateIssuesSameCommands : Prop :=
  ∀ chunk base n : Nat, 0 < chunk →
    Controller.commandsOf (Controller.batchedUpdate chunk base n) =
      Controller.commandsOf (Controller.updateRoutine chunk base n 0)

/-- R164, R15: a run from RST whose host compresses no byte it has not written since leaves the same H, PLEN and STATUS for every draw of
that RST. -/
def Obligations.StaleFreeRunIgnoresDraw : Prop :=
  ∀ (n : Nat) (s t : State) (d d' : Memory) (rest : List HostAction),
    staleFree n [] { s with pending := .rst d :: rest } = true →
    core.run n { s with pending := .rst d :: rest } = .next t →
    ∃ t', core.run n { s with pending := .rst d' :: rest } = .next t' ∧
      t'.h = t.h ∧ t'.plen = t.plen ∧ t'.status = t.status

/-- R164, R15: two states that agree but for SB and what was read from it, with SB the same on every region written since the last
RST or a command having faulted, still do so after any step that compresses no stale byte. -/
def Obligations.StaleFreeStepKeepsAgreement : Prop :=
  ∀ (regions : List (Nat × Nat)) (s u t : State), AgreeOn regions s u → nextIsStaleFree regions s = true → step s = .next t →
    ∃ t', step u = .next t' ∧ AgreeOn (stagedAfter regions s) t t'
end

