-- ==== Sys2Proof/Laws/Decode.lean ====
section
/-! SUPPORT. The command word and its fields: taking a word apart and putting it together are inverse to each other. -/

namespace Sys2Proof

/-- The fields fit their widths (R53). -/
abbrev Fields.inRange (f : Fields) : Prop :=
  f.op < 2 ^ 8 ∧ f.p < 2 ^ 1 ∧ f.rsv < 2 ^ 23 ∧ f.a < 2 ^ 32 ∧ f.b < 2 ^ 32 ∧ f.x < 2 ^ 32

theorem splitFields_inRange (w : CommandWord) : (splitFields w).inRange :=
  ⟨(w.extractLsb' 0 8).isLt, (w.extractLsb' 8 1).isLt, (w.extractLsb' 9 23).isLt, (w.extractLsb' 32 32).isLt,
    (w.extractLsb' 64 32).isLt, (w.extractLsb' 96 32).isLt⟩

/-- Concatenation as a number: the first part is the more significant (R6). -/
theorem toNat_append_eq {m n : Nat} (x : BitVec m) (y : BitVec n) : (x ++ y).toNat = x.toNat * 2 ^ n + y.toNat := by
  rw [BitVec.toNat_append, ← Nat.shiftLeft_add_eq_or_of_lt y.isLt, Nat.shiftLeft_eq]

/-- The fields of a word that was put together are the fields it was made of. -/
theorem splitFields_joinFields {f : Fields} (h : f.inRange) : splitFields (joinFields f) = f := by
  obtain ⟨hop, hp, hrsv, ha, hb, hx⟩ := h
  have e : (joinFields f).toNat = ((((f.x * 2 ^ 32 + f.b) * 2 ^ 32 + f.a) * 2 ^ 23 + f.rsv) * 2 ^ 1 + f.p) * 2 ^ 8 + f.op := by
    simp only [joinFields, toNat_append_eq, BitVec.toNat_ofNat, Nat.mod_eq_of_lt hop, Nat.mod_eq_of_lt hp,
      Nat.mod_eq_of_lt hrsv, Nat.mod_eq_of_lt ha, Nat.mod_eq_of_lt hb, Nat.mod_eq_of_lt hx]
  cases f
  simp only [splitFields, fieldOf, BitVec.extractLsb'_toNat, e, Nat.shiftRight_eq_div_pow, Fields.mk.injEq] at *
  omega

/-- A word is put together from its own fields. -/
theorem joinFields_splitFields (w : CommandWord) : joinFields (splitFields w) = w := by
  have e (lo width : Nat) : BitVec.ofNat width (fieldOf w lo width) = w.extractLsb' lo width := by
    rw [fieldOf, BitVec.ofNat_toNat, BitVec.setWidth_eq]
  simp only [joinFields, splitFields, e]
  ext i hi
  simp only [BitVec.getElem_append, BitVec.getElem_extractLsb']
  have key : ∀ j, j = i → w.getLsbD j = w[i] := fun j hj => by subst hj; exact BitVec.getLsbD_eq_getElem hi
  split
  · exact key _ (by omega)
  · split
    · exact key _ (by omega)
    · split
      · exact key _ (by omega)
      · split
        · exact key _ (by omega)
        · split
          · exact key _ (by omega)
          · exact key _ (by omega)

@[simp] theorem whenUnusedZero_true (i : Instr) : whenUnusedZero true i = .ok i := rfl

@[simp] theorem whenUnusedZero_false (i : Instr) : whenUnusedZero false i = .error .reservedField := rfl

theorem whenUnusedZero_eq_ok {z : Bool} {i j : Instr} : whenUnusedZero z i = .ok j ↔ z = true ∧ i = j := by
  cases z <;> simp [whenUnusedZero]

/-- The fields of a well-formed command fit their widths. -/
theorem encodeFields_inRange {i : Instr} (h : i.wellFormed = true) : (encodeFields i).inRange := by
  cases i with
  | wrreg r v => have := v.isLt; simp [Instr.wellFormed, fits32, encodeFields, Fields.inRange] at *; omega
  | wrsb j v => have := v.isLt; simp [Instr.wellFormed, fits32, encodeFields, Fields.inRange] at *; omega
  | pad len msgLen => simp [Instr.wellFormed, fits32, fits64, encodeFields, Fields.inRange] at *; omega
  | pack src count dst => simp [Instr.wellFormed, fits32, encodeFields, Fields.inRange] at *; omega
  | nop => simp [encodeFields, Fields.inRange]
  | init => simp [encodeFields, Fields.inRange]
  | compressP => simp [encodeFields, Fields.inRange]
  | compress len => simpa [Instr.wellFormed, fits32, encodeFields, Fields.inRange] using h
  | rdreg r => simpa [Instr.wellFormed, fits32, encodeFields, Fields.inRange] using h
  | rdsb j => simpa [Instr.wellFormed, fits32, encodeFields, Fields.inRange] using h

end Sys2Proof
end

