-- ==== Sys2Proof/Laws/State.lean ====
section
/-! SUPPORT. Each field of State after each named update of it. -/

namespace Sys2Proof.Machine.State

variable (s : State)

@[simp] theorem setChain_cfg (c : Chain) : (s.setChain c).cfg = s.cfg := rfl
@[simp] theorem setChain_h (c : Chain) : (s.setChain c).h = c := rfl
@[simp] theorem setChain_sb (c : Chain) : (s.setChain c).sb = s.sb := rfl
@[simp] theorem setChain_plen (c : Chain) : (s.setChain c).plen = s.plen := rfl
@[simp] theorem setChain_status (c : Chain) : (s.setChain c).status = s.status := rfl
@[simp] theorem setChain_result (c : Chain) : (s.setChain c).result = s.result := rfl
@[simp] theorem setChain_src (c : Chain) : (s.setChain c).src = s.src := rfl
@[simp] theorem setChain_roff (c : Chain) : (s.setChain c).roff = s.roff := rfl
@[simp] theorem setChain_pending (c : Chain) : (s.setChain c).pending = s.pending := rfl
@[simp] theorem setChain_pc (c : Chain) : (s.setChain c).pc = s.pc := rfl
@[simp] theorem setChain_results (c : Chain) : (s.setChain c).results = s.results := rfl

@[simp] theorem setStaging_cfg (m : Memory) : (s.setStaging m).cfg = s.cfg := rfl
@[simp] theorem setStaging_h (m : Memory) : (s.setStaging m).h = s.h := rfl
@[simp] theorem setStaging_sb (m : Memory) : (s.setStaging m).sb = m := rfl
@[simp] theorem setStaging_plen (m : Memory) : (s.setStaging m).plen = s.plen := rfl
@[simp] theorem setStaging_status (m : Memory) : (s.setStaging m).status = s.status := rfl
@[simp] theorem setStaging_result (m : Memory) : (s.setStaging m).result = s.result := rfl
@[simp] theorem setStaging_src (m : Memory) : (s.setStaging m).src = s.src := rfl
@[simp] theorem setStaging_roff (m : Memory) : (s.setStaging m).roff = s.roff := rfl
@[simp] theorem setStaging_pending (m : Memory) : (s.setStaging m).pending = s.pending := rfl
@[simp] theorem setStaging_pc (m : Memory) : (s.setStaging m).pc = s.pc := rfl
@[simp] theorem setStaging_results (m : Memory) : (s.setStaging m).results = s.results := rfl

@[simp] theorem setPlen_cfg (w : Word) : (s.setPlen w).cfg = s.cfg := rfl
@[simp] theorem setPlen_h (w : Word) : (s.setPlen w).h = s.h := rfl
@[simp] theorem setPlen_sb (w : Word) : (s.setPlen w).sb = s.sb := rfl
@[simp] theorem setPlen_plen (w : Word) : (s.setPlen w).plen = w := rfl
@[simp] theorem setPlen_status (w : Word) : (s.setPlen w).status = s.status := rfl
@[simp] theorem setPlen_result (w : Word) : (s.setPlen w).result = s.result := rfl
@[simp] theorem setPlen_src (w : Word) : (s.setPlen w).src = s.src := rfl
@[simp] theorem setPlen_roff (w : Word) : (s.setPlen w).roff = s.roff := rfl
@[simp] theorem setPlen_pending (w : Word) : (s.setPlen w).pending = s.pending := rfl
@[simp] theorem setPlen_pc (w : Word) : (s.setPlen w).pc = s.pc := rfl
@[simp] theorem setPlen_results (w : Word) : (s.setPlen w).results = s.results := rfl

@[simp] theorem setStatus_cfg (w : Word) : (s.setStatus w).cfg = s.cfg := rfl
@[simp] theorem setStatus_h (w : Word) : (s.setStatus w).h = s.h := rfl
@[simp] theorem setStatus_sb (w : Word) : (s.setStatus w).sb = s.sb := rfl
@[simp] theorem setStatus_plen (w : Word) : (s.setStatus w).plen = s.plen := rfl
@[simp] theorem setStatus_status (w : Word) : (s.setStatus w).status = w := rfl
@[simp] theorem setStatus_result (w : Word) : (s.setStatus w).result = s.result := rfl
@[simp] theorem setStatus_src (w : Word) : (s.setStatus w).src = s.src := rfl
@[simp] theorem setStatus_roff (w : Word) : (s.setStatus w).roff = s.roff := rfl
@[simp] theorem setStatus_pending (w : Word) : (s.setStatus w).pending = s.pending := rfl
@[simp] theorem setStatus_pc (w : Word) : (s.setStatus w).pc = s.pc := rfl
@[simp] theorem setStatus_results (w : Word) : (s.setStatus w).results = s.results := rfl

@[simp] theorem setResult_cfg (w : Word) : (s.setResult w).cfg = s.cfg := rfl
@[simp] theorem setResult_h (w : Word) : (s.setResult w).h = s.h := rfl
@[simp] theorem setResult_sb (w : Word) : (s.setResult w).sb = s.sb := rfl
@[simp] theorem setResult_plen (w : Word) : (s.setResult w).plen = s.plen := rfl
@[simp] theorem setResult_status (w : Word) : (s.setResult w).status = s.status := rfl
@[simp] theorem setResult_result (w : Word) : (s.setResult w).result = w := rfl
@[simp] theorem setResult_src (w : Word) : (s.setResult w).src = s.src := rfl
@[simp] theorem setResult_roff (w : Word) : (s.setResult w).roff = s.roff := rfl
@[simp] theorem setResult_pending (w : Word) : (s.setResult w).pending = s.pending := rfl
@[simp] theorem setResult_pc (w : Word) : (s.setResult w).pc = s.pc := rfl
@[simp] theorem setResult_results (w : Word) : (s.setResult w).results = s.results := rfl

@[simp] theorem setSource_cfg (m : Memory) : (s.setSource m).cfg = s.cfg := rfl
@[simp] theorem setSource_h (m : Memory) : (s.setSource m).h = s.h := rfl
@[simp] theorem setSource_sb (m : Memory) : (s.setSource m).sb = s.sb := rfl
@[simp] theorem setSource_plen (m : Memory) : (s.setSource m).plen = s.plen := rfl
@[simp] theorem setSource_status (m : Memory) : (s.setSource m).status = s.status := rfl
@[simp] theorem setSource_result (m : Memory) : (s.setSource m).result = s.result := rfl
@[simp] theorem setSource_src (m : Memory) : (s.setSource m).src = m := rfl
@[simp] theorem setSource_roff (m : Memory) : (s.setSource m).roff = s.roff := rfl
@[simp] theorem setSource_pending (m : Memory) : (s.setSource m).pending = s.pending := rfl
@[simp] theorem setSource_pc (m : Memory) : (s.setSource m).pc = s.pc := rfl
@[simp] theorem setSource_results (m : Memory) : (s.setSource m).results = s.results := rfl

@[simp] theorem setRoff_cfg (n : Nat) : (s.setRoff n).cfg = s.cfg := rfl
@[simp] theorem setRoff_h (n : Nat) : (s.setRoff n).h = s.h := rfl
@[simp] theorem setRoff_sb (n : Nat) : (s.setRoff n).sb = s.sb := rfl
@[simp] theorem setRoff_plen (n : Nat) : (s.setRoff n).plen = s.plen := rfl
@[simp] theorem setRoff_status (n : Nat) : (s.setRoff n).status = s.status := rfl
@[simp] theorem setRoff_result (n : Nat) : (s.setRoff n).result = s.result := rfl
@[simp] theorem setRoff_src (n : Nat) : (s.setRoff n).src = s.src := rfl
@[simp] theorem setRoff_roff (n : Nat) : (s.setRoff n).roff = n := rfl
@[simp] theorem setRoff_pending (n : Nat) : (s.setRoff n).pending = s.pending := rfl
@[simp] theorem setRoff_pc (n : Nat) : (s.setRoff n).pc = s.pc := rfl
@[simp] theorem setRoff_results (n : Nat) : (s.setRoff n).results = s.results := rfl

@[simp] theorem setPending_cfg (l : List HostAction) : (s.setPending l).cfg = s.cfg := rfl
@[simp] theorem setPending_h (l : List HostAction) : (s.setPending l).h = s.h := rfl
@[simp] theorem setPending_sb (l : List HostAction) : (s.setPending l).sb = s.sb := rfl
@[simp] theorem setPending_plen (l : List HostAction) : (s.setPending l).plen = s.plen := rfl
@[simp] theorem setPending_status (l : List HostAction) : (s.setPending l).status = s.status := rfl
@[simp] theorem setPending_result (l : List HostAction) : (s.setPending l).result = s.result := rfl
@[simp] theorem setPending_src (l : List HostAction) : (s.setPending l).src = s.src := rfl
@[simp] theorem setPending_roff (l : List HostAction) : (s.setPending l).roff = s.roff := rfl
@[simp] theorem setPending_pending (l : List HostAction) : (s.setPending l).pending = l := rfl
@[simp] theorem setPending_pc (l : List HostAction) : (s.setPending l).pc = s.pc := rfl
@[simp] theorem setPending_results (l : List HostAction) : (s.setPending l).results = s.results := rfl

@[simp] theorem setPc_cfg (n : Nat) : (s.setPc n).cfg = s.cfg := rfl
@[simp] theorem setPc_h (n : Nat) : (s.setPc n).h = s.h := rfl
@[simp] theorem setPc_sb (n : Nat) : (s.setPc n).sb = s.sb := rfl
@[simp] theorem setPc_plen (n : Nat) : (s.setPc n).plen = s.plen := rfl
@[simp] theorem setPc_status (n : Nat) : (s.setPc n).status = s.status := rfl
@[simp] theorem setPc_result (n : Nat) : (s.setPc n).result = s.result := rfl
@[simp] theorem setPc_src (n : Nat) : (s.setPc n).src = s.src := rfl
@[simp] theorem setPc_roff (n : Nat) : (s.setPc n).roff = s.roff := rfl
@[simp] theorem setPc_pending (n : Nat) : (s.setPc n).pending = s.pending := rfl
@[simp] theorem setPc_pc (n : Nat) : (s.setPc n).pc = n := rfl
@[simp] theorem setPc_results (n : Nat) : (s.setPc n).results = s.results := rfl

@[simp] theorem setResults_cfg (l : List Word) : (s.setResults l).cfg = s.cfg := rfl
@[simp] theorem setResults_h (l : List Word) : (s.setResults l).h = s.h := rfl
@[simp] theorem setResults_sb (l : List Word) : (s.setResults l).sb = s.sb := rfl
@[simp] theorem setResults_plen (l : List Word) : (s.setResults l).plen = s.plen := rfl
@[simp] theorem setResults_status (l : List Word) : (s.setResults l).status = s.status := rfl
@[simp] theorem setResults_result (l : List Word) : (s.setResults l).result = s.result := rfl
@[simp] theorem setResults_src (l : List Word) : (s.setResults l).src = s.src := rfl
@[simp] theorem setResults_roff (l : List Word) : (s.setResults l).roff = s.roff := rfl
@[simp] theorem setResults_pending (l : List Word) : (s.setResults l).pending = s.pending := rfl
@[simp] theorem setResults_pc (l : List Word) : (s.setResults l).pc = s.pc := rfl
@[simp] theorem setResults_results (l : List Word) : (s.setResults l).results = l := rfl

@[simp] theorem issue_cfg (rest : List HostAction) : (s.issue rest).cfg = s.cfg := rfl
@[simp] theorem issue_h (rest : List HostAction) : (s.issue rest).h = s.h := rfl
@[simp] theorem issue_sb (rest : List HostAction) : (s.issue rest).sb = s.sb := rfl
@[simp] theorem issue_plen (rest : List HostAction) : (s.issue rest).plen = s.plen := rfl
@[simp] theorem issue_status (rest : List HostAction) : (s.issue rest).status = s.status := rfl
@[simp] theorem issue_result (rest : List HostAction) : (s.issue rest).result = s.result := rfl
@[simp] theorem issue_src (rest : List HostAction) : (s.issue rest).src = s.src := rfl
@[simp] theorem issue_roff (rest : List HostAction) : (s.issue rest).roff = s.roff := rfl
@[simp] theorem issue_pending (rest : List HostAction) : (s.issue rest).pending = rest := rfl
@[simp] theorem issue_pc (rest : List HostAction) : (s.issue rest).pc = s.pc + 1 := rfl
@[simp] theorem issue_results (rest : List HostAction) : (s.issue rest).results = s.results := rfl

@[simp] theorem receive_cfg : (s.receive).cfg = s.cfg := rfl
@[simp] theorem receive_h : (s.receive).h = s.h := rfl
@[simp] theorem receive_sb : (s.receive).sb = s.sb := rfl
@[simp] theorem receive_plen : (s.receive).plen = s.plen := rfl
@[simp] theorem receive_status : (s.receive).status = s.status := rfl
@[simp] theorem receive_result : (s.receive).result = s.result := rfl
@[simp] theorem receive_src : (s.receive).src = s.src := rfl
@[simp] theorem receive_roff : (s.receive).roff = s.roff := rfl
@[simp] theorem receive_pending : (s.receive).pending = s.pending := rfl
@[simp] theorem receive_pc : (s.receive).pc = s.pc := rfl
@[simp] theorem receive_results : (s.receive).results = s.results ++ [s.result] := rfl

@[simp] theorem assertReset_cfg (d : Memory) : (s.assertReset d).cfg = s.cfg := rfl
@[simp] theorem assertReset_h (d : Memory) : (s.assertReset d).h = Chain.iv := rfl
@[simp] theorem assertReset_sb (d : Memory) : (s.assertReset d).sb = Memory.confine s.cfg.padcap d := rfl
@[simp] theorem assertReset_plen (d : Memory) : (s.assertReset d).plen = 0x00000000#32 := rfl
@[simp] theorem assertReset_status (d : Memory) : (s.assertReset d).status = 0x00000000#32 := rfl
@[simp] theorem assertReset_result (d : Memory) : (s.assertReset d).result = s.result := rfl
@[simp] theorem assertReset_src (d : Memory) : (s.assertReset d).src = s.src := rfl
@[simp] theorem assertReset_roff (d : Memory) : (s.assertReset d).roff = s.roff := rfl
@[simp] theorem assertReset_pending (d : Memory) : (s.assertReset d).pending = s.pending := rfl
@[simp] theorem assertReset_pc (d : Memory) : (s.assertReset d).pc = s.pc := rfl
@[simp] theorem assertReset_results (d : Memory) : (s.assertReset d).results = s.results := rfl

@[simp] theorem withNextCommand_cfg (w : CommandWord) : (s.withNextCommand w).cfg = s.cfg := rfl
@[simp] theorem withNextCommand_h (w : CommandWord) : (s.withNextCommand w).h = s.h := rfl
@[simp] theorem withNextCommand_sb (w : CommandWord) : (s.withNextCommand w).sb = s.sb := rfl
@[simp] theorem withNextCommand_plen (w : CommandWord) : (s.withNextCommand w).plen = s.plen := rfl
@[simp] theorem withNextCommand_status (w : CommandWord) : (s.withNextCommand w).status = s.status := rfl
@[simp] theorem withNextCommand_result (w : CommandWord) : (s.withNextCommand w).result = s.result := rfl
@[simp] theorem withNextCommand_src (w : CommandWord) : (s.withNextCommand w).src = s.src := rfl
@[simp] theorem withNextCommand_roff (w : CommandWord) : (s.withNextCommand w).roff = s.roff := rfl
@[simp] theorem withNextCommand_pending (w : CommandWord) : (s.withNextCommand w).pending = .command w :: s.pending := rfl
@[simp] theorem withNextCommand_pc (w : CommandWord) : (s.withNextCommand w).pc = s.pc := rfl
@[simp] theorem withNextCommand_results (w : CommandWord) : (s.withNextCommand w).results = s.results := rfl

@[simp] theorem err_setChain (c : Chain) : (s.setChain c).err = s.err := rfl
@[simp] theorem err_setStaging (m : Memory) : (s.setStaging m).err = s.err := rfl
@[simp] theorem err_setPlen (w : Word) : (s.setPlen w).err = s.err := rfl
@[simp] theorem err_setStatus (w : Word) : (s.setStatus w).err = w.getLsbD 0 := rfl
@[simp] theorem err_setResult (w : Word) : (s.setResult w).err = s.err := rfl
@[simp] theorem err_setSource (m : Memory) : (s.setSource m).err = s.err := rfl
@[simp] theorem err_setRoff (n : Nat) : (s.setRoff n).err = s.err := rfl
@[simp] theorem err_setPending (l : List HostAction) : (s.setPending l).err = s.err := rfl
@[simp] theorem err_setPc (n : Nat) : (s.setPc n).err = s.err := rfl
@[simp] theorem err_setResults (l : List Word) : (s.setResults l).err = s.err := rfl
@[simp] theorem err_issue (rest : List HostAction) : (s.issue rest).err = s.err := rfl

end Sys2Proof.Machine.State
end

