-- ==== Sys2Proof/Laws/Finish.lean ====
section
/-! SUPPORT. How a command ends, by whether ERR was set and how its rule ended (R141, R144). -/

namespace Sys2Proof.Machine

/-- A fault sets ERR (R141). -/
theorem faultStatus_err (c : Cause) : (faultStatus c).getLsbD 0 = true := by cases c <;> decide

/-- STATUS after a fault is one of its legal values (R26). -/
theorem legalStatus_faultStatus (c : Cause) : legalStatus (faultStatus c) = true := by cases c <;> decide

end Sys2Proof.Machine

namespace Sys2Proof.Machine.State

theorem finish_ok {s : State} (h : s.err = false) (isRead : Bool) (t : State) (r : Word) :
    s.finish isRead (.ok t r) = .next (t.setResult r) := by simp [finish, h]

theorem finish_raise {s : State} (h : s.err = false) (isRead : Bool) (c : Cause) :
    s.finish isRead (.raise c) = .next { s with status := faultStatus c, result := 0x00000000#32 } := by
  simp [finish, h, takeFault, setResult, setStatus]

theorem finish_read {s : State} (t : State) (r : Word) (ht : t = s) :
    s.finish true (.ok t r) = .next (s.setResult r) := by
  subst ht
  cases h : t.err <;> simp [finish, h]

theorem finish_dropped {s : State} (h : s.err = true) (o : RuleOutcome) :
    s.finish false o = .next (s.setResult 0x00000000#32) := by
  cases o <;> simp [finish, h]

theorem finish_raise_err {s : State} (h : s.err = true) (isRead : Bool) (c : Cause) :
    s.finish isRead (.raise c) = .next (s.setResult 0x00000000#32) := by simp [finish, h]

/-- What a command that ended did: its rule's effects, the fault action, or nothing but a result. -/
theorem finish_cases {s t : State} {isRead : Bool} {o : RuleOutcome} (h : s.finish isRead o = .next t) :
    (∃ u r, o = .ok u r ∧ s.err = false ∧ t = u.setResult r) ∨
    (∃ c, o = .raise c ∧ s.err = false ∧ t = { s with status := faultStatus c, result := 0x00000000#32 }) ∨
    (s.err = true ∧ ∃ r, t = s.setResult r) := by
  cases he : s.err with
  | false =>
    cases o with
    | ok u r => rw [finish_ok he] at h; exact .inl ⟨u, r, rfl, rfl, by simpa using h.symm⟩
    | raise c => rw [finish_raise he] at h; exact .inr (.inl ⟨c, rfl, rfl, by simpa using h.symm⟩)
  | true =>
    refine .inr (.inr ⟨rfl, ?_⟩)
    cases o with
    | ok u r => simp [finish, he] at h; exact ⟨_, h.symm⟩
    | raise c => rw [finish_raise_err he] at h; exact ⟨_, by simpa using h.symm⟩

theorem exists_finish (s : State) (isRead : Bool) (o : RuleOutcome) : ∃ t, s.finish isRead o = .next t := by
  cases he : s.err <;> cases o <;> simp [finish, he]

end Sys2Proof.Machine.State
end

