-- ==== Sys2Proof/Laws/Memory.lean ====
section
/-! SUPPORT. The memory operations: what each address reads after a write, and that every one keeps the canonical form. -/

namespace Sys2Proof.Machine.Memory

variable (m : Memory)

@[simp] theorem read_nil (a : Nat) : read [] a = unwrittenByte := rfl

theorem read_of_not_listed {m : Memory} {a : Nat} (h : ∀ c ∈ m, c.1 ≠ a) : read m a = unwrittenByte := by
  induction m with
  | nil => rfl
  | cons c m ih =>
    have hc : c.1 ≠ a := h c (by simp)
    simp only [read, hc, if_false]
    exact ih fun d hd => h d (by simp [hd])

theorem read_append_right {l r : Memory} {a : Nat} (h : ∀ c ∈ l, c.1 ≠ a) : read (l ++ r) a = read r a := by
  induction l with
  | nil => rfl
  | cons c l ih =>
    have hc : c.1 ≠ a := h c (by simp)
    simp only [List.cons_append, read, hc, if_false]
    exact ih fun d hd => h d (by simp [hd])

theorem read_append_left {l r : Memory} {a : Nat} (h : ∀ c ∈ r, c.1 ≠ a) : read (l ++ r) a = read l a := by
  induction l with
  | nil => exact read_of_not_listed h
  | cons c l ih =>
    simp only [List.cons_append, read]
    split
    · rfl
    · exact ih

theorem read_filter {p : Nat → Bool} {a : Nat} (h : p a = true) :
    read (m.filter fun c => p c.1) a = read m a := by
  induction m with
  | nil => rfl
  | cons c m ih =>
    by_cases hp : p c.1 = true
    · simp only [List.filter_cons, hp, if_true, read, ih]
    · have hc : c.1 ≠ a := fun e => hp (e ▸ h)
      simp only [List.filter_cons, hp, read, hc, if_false]
      exact ih

theorem cellsFrom_bounds {base : Nat} {bytes : List Byte} {c : Host.Cell} (h : c ∈ cellsFrom base bytes) :
    base ≤ c.1 ∧ c.1 < base + bytes.length ∧ c.2 ≠ unwrittenByte := by
  induction bytes generalizing base with
  | nil => simp [cellsFrom] at h
  | cons b bytes ih =>
    simp only [cellsFrom] at h
    split at h
    · obtain ⟨h1, h2, h3⟩ := ih h
      simp only [List.length_cons]
      exact ⟨by omega, by omega, h3⟩
    · rcases List.mem_cons.mp h with rfl | h
      · rename_i hb
        simp only [List.length_cons]
        exact ⟨le_refl _, by omega, hb⟩
      · obtain ⟨h1, h2, h3⟩ := ih h
        simp only [List.length_cons]
        exact ⟨by omega, by omega, h3⟩

theorem read_cellsFrom {base a : Nat} {bytes : List Byte} (h : base ≤ a ∧ a < base + bytes.length) :
    read (cellsFrom base bytes) a = bytes.getD (a - base) unwrittenByte := by
  induction bytes generalizing base with
  | nil => simp at h; omega
  | cons b bytes ih =>
    simp only [List.length_cons] at h
    by_cases ha : base = a
    · subst ha
      simp only [cellsFrom]
      split
      · rename_i hb
        rw [read_of_not_listed fun c hc => by have := cellsFrom_bounds hc; omega]
        simp [hb]
      · simp [read]
    · have hs : a - base = (a - (base + 1)) + 1 := by omega
      have := ih (base := base + 1) (by omega)
      simp only [cellsFrom]
      split
      · rw [this, hs, List.getD_cons_succ]
      · simp only [read, ha, if_false]
        rw [this, hs, List.getD_cons_succ]

/-- What every address reads after a write of `bytes` at `base`. -/
theorem read_writeBytes (base : Nat) (bytes : List Byte) (a : Nat) :
    read (writeBytes m base bytes) a =
      if base ≤ a ∧ a < base + bytes.length then bytes.getD (a - base) unwrittenByte else read m a := by
  have hlow : ∀ c ∈ m.filter (fun c => decide (c.1 < base)), c.1 < base := by simp
  have hhigh : ∀ c ∈ m.filter (fun c => decide (base + bytes.length ≤ c.1)), base + bytes.length ≤ c.1 := by simp
  unfold writeBytes
  split
  · rename_i h
    rw [read_append_left fun c hc => by have := hhigh c hc; omega,
      read_append_right fun c hc => by have := hlow c hc; omega, read_cellsFrom h]
  · rename_i h
    by_cases hb : a < base
    · rw [read_append_left fun c hc => by have := hhigh c hc; omega,
        read_append_left fun c hc => by have := cellsFrom_bounds hc; omega,
        read_filter (p := fun n => decide (n < base)) m (by simpa using hb)]
    · rw [read_append_right, read_filter (p := fun n => decide (base + bytes.length ≤ n)) m (by simp; omega)]
      intro c hc
      rcases List.mem_append.mp hc with hc | hc
      · have := hlow c hc; omega
      · have := cellsFrom_bounds hc; omega

theorem read_writeBytes_outside {base a : Nat} {bytes : List Byte} (h : a < base ∨ base + bytes.length ≤ a) :
    read (writeBytes m base bytes) a = read m a := by
  rw [read_writeBytes, if_neg (by omega)]

theorem read_writeByte (k a : Nat) (v : Byte) : read (writeByte m k v) a = if a = k then v else read m a := by
  rw [writeByte, read_writeBytes]
  by_cases h : a = k
  · subst h; simp
  · rw [if_neg (by simp; omega), if_neg h]

theorem wf_cellsFrom (base : Nat) (bytes : List Byte) : wf (cellsFrom base bytes) := by
  refine ⟨?_, fun c hc => (cellsFrom_bounds hc).2.2⟩
  induction bytes generalizing base with
  | nil => simp [cellsFrom]
  | cons b bytes ih =>
    simp only [cellsFrom]
    split
    · exact ih _
    · refine List.pairwise_cons.mpr ⟨fun c hc => ?_, ih _⟩
      have := cellsFrom_bounds hc
      show base < c.1
      omega

/-- A write keeps the canonical form. -/
theorem wf_writeBytes {m : Memory} (h : wf m) (base : Nat) (bytes : List Byte) : wf (writeBytes m base bytes) := by
  have hlow : ∀ c ∈ m.filter (fun c => decide (c.1 < base)), c.1 < base := by simp
  have hhigh : ∀ c ∈ m.filter (fun c => decide (base + bytes.length ≤ c.1)), base + bytes.length ≤ c.1 := by simp
  refine ⟨?_, ?_⟩
  · refine List.pairwise_append.mpr ⟨List.pairwise_append.mpr ⟨h.1.filter _, (wf_cellsFrom _ _).1, ?_⟩, h.1.filter _, ?_⟩
    · intro c hc d hd
      have := hlow c hc
      have := cellsFrom_bounds hd
      omega
    · intro c hc d hd
      have := hhigh d hd
      rcases List.mem_append.mp hc with hc | hc
      · have := hlow c hc; omega
      · have := cellsFrom_bounds hc; omega
  · intro c hc
    rcases List.mem_append.mp hc with hc | hc
    · rcases List.mem_append.mp hc with hc | hc
      · exact h.2 c (List.mem_of_mem_filter hc)
      · exact (cellsFrom_bounds hc).2.2
    · exact h.2 c (List.mem_of_mem_filter hc)

/-- A write inside the address range keeps the memory inside it. -/
theorem within_writeBytes {m : Memory} {size base : Nat} {bytes : List Byte} (h : within size m)
    (hb : base + bytes.length ≤ size) : within size (writeBytes m base bytes) := by
  intro c hc
  rcases List.mem_append.mp hc with hc | hc
  · rcases List.mem_append.mp hc with hc | hc
    · exact h c (List.mem_of_mem_filter hc)
    · have := cellsFrom_bounds hc; omega
  · exact h c (List.mem_of_mem_filter hc)

/-! ### Reset's draw -/

theorem wf_confine (size : Nat) : wf (confine size m) := by
  induction m with
  | nil => exact ⟨List.Pairwise.nil, by simp [confine]⟩
  | cons c m ih =>
    simp only [confine, List.foldr_cons]
    split
    · exact wf_writeBytes ih _ _
    · exact ih

theorem within_confine (size : Nat) : within size (confine size m) := by
  induction m with
  | nil => simp [confine, within]
  | cons c m ih =>
    simp only [confine, List.foldr_cons]
    split
    · exact within_writeBytes ih (by simpa using ‹c.1 < size›)
    · exact ih

theorem read_of_within {m : Memory} {size a : Nat} (h : within size m) (ha : size ≤ a) : read m a = unwrittenByte :=
  read_of_not_listed fun c hc => by have := h c hc; omega

/-- The confined memory reads what the draw reads, at each address of the range. -/
theorem read_confine {size a : Nat} (ha : a < size) : read (confine size m) a = read m a := by
  induction m with
  | nil => rfl
  | cons c m ih =>
    simp only [confine, List.foldr_cons] at ih ⊢
    by_cases hc : c.1 < size
    · rw [if_pos hc, read_writeByte]
      simp only [read]
      by_cases e : c.1 = a
      · simp [e]
      · rw [if_neg (Ne.symm e), if_neg e]; exact ih
    · rw [if_neg hc]
      have e : c.1 ≠ a := by omega
      simp only [read, e, if_false]
      exact ih

theorem wf_tail {c : Host.Cell} {m : Memory} (h : wf (c :: m)) : wf m :=
  ⟨(List.pairwise_cons.mp h.1).2, fun d hd => h.2 d (by simp [hd])⟩

theorem read_head {c : Host.Cell} {m : Memory} : read (c :: m) c.1 = c.2 := by simp [read]

theorem read_below_head {c : Host.Cell} {m : Memory} (h : wf (c :: m)) {a : Nat} (ha : a < c.1) :
    read (c :: m) a = unwrittenByte := by
  refine read_of_not_listed fun d hd => ?_
  rcases List.mem_cons.mp hd with rfl | hd
  · omega
  · have := (List.pairwise_cons.mp h.1).1 d hd
    omega

theorem read_tail_head {c : Host.Cell} {m : Memory} (h : wf (c :: m)) : read m c.1 = unwrittenByte := by
  refine read_of_not_listed fun d hd => ?_
  have := (List.pairwise_cons.mp h.1).1 d hd
  omega

/-- Two canonical memories that read alike are equal. -/
theorem eq_of_read_eq {m n : Memory} (hm : wf m) (hn : wf n) (h : ∀ a, read m a = read n a) : m = n := by
  induction m generalizing n with
  | nil =>
    cases n with
    | nil => rfl
    | cons d n =>
      have := h d.1
      rw [read_head, read_nil] at this
      exact absurd this.symm (hn.2 d (by simp))
  | cons c m ih =>
    cases n with
    | nil =>
      have := h c.1
      rw [read_head, read_nil] at this
      exact absurd this (hm.2 c (by simp))
    | cons d n =>
      have hc := hm.2 c (by simp)
      have hd := hn.2 d (by simp)
      have e : c.1 = d.1 := by
        rcases Nat.lt_trichotomy c.1 d.1 with hlt | heq | hlt
        · have := h c.1
          rw [read_head, read_below_head hn hlt] at this
          exact absurd this hc
        · exact heq
        · have := h d.1
          rw [read_head, read_below_head hm hlt] at this
          exact absurd this.symm hd
      have e2 : c.2 = d.2 := by
        have := h c.1
        rwa [read_head, e, read_head] at this
      have ecd : c = d := Prod.ext e e2
      subst ecd
      refine congrArg (c :: ·) (ih (wf_tail hm) (wf_tail hn) fun a => ?_)
      by_cases ha : c.1 = a
      · subst ha
        rw [read_tail_head hm, read_tail_head hn]
      · simpa [read, ha] using h a

/-! ### Byte sequences -/

@[simp] theorem length_readBytes (base count : Nat) : (readBytes m base count).length = count := by simp [readBytes]

theorem getD_readBytes {base count i : Nat} (h : i < count) (d : Byte) :
    (readBytes m base count).getD i d = read m (base + i) := by
  simp [readBytes, h]

theorem readBytes_congr {m n : Memory} {base count : Nat} (h : ∀ i < count, read m (base + i) = read n (base + i)) :
    readBytes m base count = readBytes n base count := by
  simp only [readBytes]
  exact List.map_congr_left fun i hi => h i (List.mem_range.mp hi)

@[simp] theorem length_be32 (w : Word) : (be32 w).length = 4 := by simp [be32]

@[simp] theorem length_be64 (v : BitVec 64) : (be64 v).length = 8 := by simp [be64]

theorem wf_writeByte {m : Memory} (h : wf m) (k : Nat) (v : Byte) : wf (writeByte m k v) := wf_writeBytes h _ _

theorem wf_writeWord {m : Memory} (h : wf m) (k : Nat) (v : Word) : wf (writeWord m k v) := wf_writeBytes h _ _

theorem wf_writeDouble {m : Memory} (h : wf m) (k : Nat) (v : BitVec 64) : wf (writeDouble m k v) := wf_writeBytes h _ _

theorem within_writeByte {m : Memory} {size k : Nat} (h : within size m) (hk : k < size) (v : Byte) :
    within size (writeByte m k v) := within_writeBytes h (by simpa using hk)

theorem within_writeWord {m : Memory} {size k : Nat} (h : within size m) (hk : k + 4 ≤ size) (v : Word) :
    within size (writeWord m k v) := within_writeBytes h (by simpa using hk)

theorem within_writeDouble {m : Memory} {size k : Nat} (h : within size m) (hk : k + 8 ≤ size) (v : BitVec 64) :
    within size (writeDouble m k v) := within_writeBytes h (by simpa using hk)

/-- Byte `i` of `BE64(v)` (R8). -/
theorem getD_be64 (v : BitVec 64) {i : Nat} (h : i < 8) (d : Byte) :
    (be64 v).getD i d = v.extractLsb' (56 - 8 * i) 8 := by
  have hi : i = 0 ∨ i = 1 ∨ i = 2 ∨ i = 3 ∨ i = 4 ∨ i = 5 ∨ i = 6 ∨ i = 7 := by omega
  have low (k : Nat) (hk : k + 8 ≤ 32) : (v.extractLsb' 0 32).extractLsb' k 8 = v.extractLsb' k 8 := by
    ext j hj
    simp only [BitVec.getElem_extractLsb', BitVec.getLsbD_extractLsb', Nat.zero_add]
    simp [show k + j < 32 by omega]
  have high (k : Nat) (hk : k + 8 ≤ 32) : (v.extractLsb' 32 32).extractLsb' k 8 = v.extractLsb' (32 + k) 8 := by
    ext j hj
    simp only [BitVec.getElem_extractLsb', BitVec.getLsbD_extractLsb', Nat.add_assoc]
    simp [show k + j < 32 by omega]
  rcases hi with rfl | rfl | rfl | rfl | rfl | rfl | rfl | rfl
  · exact high 24 (by omega)
  · exact high 16 (by omega)
  · exact high 8 (by omega)
  · exact high 0 (by omega)
  · exact low 24 (by omega)
  · exact low 16 (by omega)
  · exact low 8 (by omega)
  · exact low 0 (by omega)

/-- Byte `i` of a word just written (R121). -/
theorem read_writeWord (k : Nat) (v : Word) {i : Nat} (h : i < 4) :
    read (writeWord m k v) (k + i) = (be32 v).getD i unwrittenByte := by
  rw [writeWord, read_writeBytes, length_be32, if_pos (by omega), Nat.add_sub_cancel_left]

theorem read_writeWord_outside {k a : Nat} (v : Word) (h : a < k ∨ k + 4 ≤ a) :
    read (writeWord m k v) a = read m a := by
  rw [writeWord, read_writeBytes_outside m (by rw [length_be32]; exact h)]

/-- A word reads back as it was written. -/
theorem readWord_writeWord (k : Nat) (v : Word) : readWord (writeWord m k v) k = v := by
  have h0 := read_writeWord m k v (i := 0) (by omega)
  have h1 := read_writeWord m k v (i := 1) (by omega)
  have h2 := read_writeWord m k v (i := 2) (by omega)
  have h3 := read_writeWord m k v (i := 3) (by omega)
  simp only [Nat.add_zero] at h0
  rw [readWord, h0, h1, h2, h3]
  ext i hi
  simp only [be32, List.getD_cons_zero, List.getD_cons_succ]
  simp only [BitVec.getElem_append, BitVec.getElem_extractLsb']
  split
  · simp [BitVec.getLsbD_eq_getElem hi]
  · split
    · have e : 8 + (i - 8) = i := by omega
      rw [e, BitVec.getLsbD_eq_getElem hi]
    · split
      · have e : 16 + (i - 8 - 8) = i := by omega
        rw [e, BitVec.getLsbD_eq_getElem hi]
      · have e : 24 + (i - 8 - 8 - 8) = i := by omega
        rw [e, BitVec.getLsbD_eq_getElem hi]

/-- Byte `4j + i` is bits `31-8i : 24-8i` of word `j` (R38). -/
theorem extract_readWord (k : Nat) {i : Nat} (h : i < 4) :
    (readWord m k).extractLsb' (24 - 8 * i) 8 = read m (k + i) := by
  have part (a b c d : Byte) : (a ++ b ++ c ++ d : Word).extractLsb' 24 8 = a ∧ (a ++ b ++ c ++ d : Word).extractLsb' 16 8 = b ∧
      (a ++ b ++ c ++ d : Word).extractLsb' 8 8 = c ∧ (a ++ b ++ c ++ d : Word).extractLsb' 0 8 = d := by
    have ha := a.isLt
    have hb := b.isLt
    have hc := c.isLt
    have hd := d.isLt
    have e : (a ++ b ++ c ++ d : Word).toNat = ((a.toNat * 2 ^ 8 + b.toNat) * 2 ^ 8 + c.toNat) * 2 ^ 8 + d.toNat := by
      rw [toNat_append_eq (a ++ b ++ c) d, toNat_append_eq (a ++ b) c, toNat_append_eq a b]
    simp only [← BitVec.toNat_inj, BitVec.extractLsb'_toNat, e, Nat.shiftRight_eq_div_pow]
    omega
  have hp := part (read m k) (read m (k + 1)) (read m (k + 2)) (read m (k + 3))
  have hi : i = 0 ∨ i = 1 ∨ i = 2 ∨ i = 3 := by omega
  rcases hi with rfl | rfl | rfl | rfl
  · exact hp.1
  · exact hp.2.1
  · exact hp.2.2.1
  · exact hp.2.2.2

/-- Words that share no byte with the write read as before. -/
theorem readWord_congr {m n : Memory} {k : Nat} (h : ∀ i < 4, read m (k + i) = read n (k + i)) :
    readWord m k = readWord n k := by
  have h0 := h 0 (by omega)
  have h1 := h 1 (by omega)
  have h2 := h 2 (by omega)
  have h3 := h 3 (by omega)
  simp only [Nat.add_zero] at h0
  rw [readWord, readWord, h0, h1, h2, h3]

end Sys2Proof.Machine.Memory
end

