-- ==== Sys2Proof/Laws/Operations.lean ====
section
/-! SUPPORT. What the datapath operations give: the packed region, the padding, the schedule and the chained blocks. -/

namespace Sys2Proof.Machine

/-! ### Ranges and lengths -/

theorem wordInSb_iff (cfg : Config) (j : Nat) : cfg.wordInSb j = true ↔ j < (cfg.chunk + 64) / 4 :=
  decide_eq_true_iff

theorem paddedLength_bounds (len : Nat) :
    paddedLength len % 64 = 0 ∧ len + 9 ≤ paddedLength len ∧ paddedLength len ≤ len + 72 := by
  simp only [paddedLength, ceil64]
  omega

/-! ### PACK -/

/-- Every byte of SB after PACK's copy (R71, R72). -/
theorem read_packed (src count dst : Nat) (s : State) (a : Nat) :
    (packed src count dst s).read a =
      if dst ≤ a ∧ a < dst + count then s.src.read (src + (a - dst)) else s.sb.read a := by
  rw [packed, Memory.read_writeBytes, Memory.length_readBytes]
  split
  · exact Memory.getD_readBytes _ (by omega) _
  · rfl

/-! ### PAD -/

/-- Every byte of SB after PAD's three writes (R84). -/
theorem read_padded (len msgLen : Nat) (m : Memory) (a : Nat) :
    (padded len msgLen m).read a =
      if a < len ∨ paddedLength len ≤ a then m.read a
      else if a = len then 0x80#8
      else if a < paddedLength len - 8 then 0x00#8
      else (be64 (bitLengthTrailer msgLen)).getD (a - (paddedLength len - 8)) 0 := by
  have hb := paddedLength_bounds len
  rw [padded, Memory.writeDouble, Memory.read_writeBytes, Memory.length_be64, Memory.read_writeByte,
    Memory.read_writeBytes, List.length_replicate]
  by_cases h1 : a < len ∨ paddedLength len ≤ a
  · rw [if_pos h1, if_neg (by omega), if_neg (by omega), if_neg (by omega)]
  · rw [if_neg h1]
    by_cases h2 : a = len
    · rw [if_pos h2, if_neg (by omega), if_pos h2]
    · rw [if_neg h2]
      by_cases h3 : a < paddedLength len - 8
      · rw [if_pos h3, if_neg (by omega), if_neg h2, if_pos (by omega)]
        simp only [List.getD_eq_getElem?_getD, List.getElem?_replicate]
        rw [if_pos (by omega)]
        rfl
      · rw [if_neg h3, if_neg h2, if_pos (by omega)]
        rfl

theorem wf_padded {m : Memory} (h : m.wf) (len msgLen : Nat) : (padded len msgLen m).wf :=
  Memory.wf_writeDouble (Memory.wf_writeByte (Memory.wf_writeBytes h _ _) _ _) _ _

theorem within_padded {m : Memory} {size len : Nat} (h : m.within size) (hp : paddedLength len ≤ size) (msgLen : Nat) :
    (padded len msgLen m).within size := by
  have hb := paddedLength_bounds len
  refine Memory.within_writeDouble (Memory.within_writeByte (Memory.within_writeBytes h ?_) (by omega) _) (by omega) _
  rw [List.length_replicate]
  omega

/-! ### The schedule -/

theorem length_extendSchedule (n : Nat) (ws : List Word) : (extendSchedule n ws).length = ws.length + n := by
  induction n generalizing ws with
  | zero => rfl
  | succ n ih => rw [extendSchedule, ih, List.length_append, List.length_singleton]; omega

/-- Extending a schedule keeps the words it has. -/
theorem getD_extendSchedule (n : Nat) (ws : List Word) {t : Nat} (h : t < ws.length) :
    (extendSchedule n ws).getD t 0 = ws.getD t 0 := by
  induction n generalizing ws with
  | zero => rfl
  | succ n ih =>
    rw [extendSchedule, ih _ (by rw [List.length_append]; omega), List.getD_append _ _ _ _ h]

/-! ### The blocks of SB -/

@[simp] theorem compressBlocks_zero (m : Memory) (h : Chain) : compressBlocks m 0 h = h := rfl

/-- One block more (R101). -/
theorem compressBlocks_succ (m : Memory) (n : Nat) (h : Chain) :
    compressBlocks m (n + 1) h = compressBlock (compressBlocks m n h) (blockWords m n) := by
  simp [compressBlocks, List.range_succ]

/-- The words of a block depend on its 64 bytes only. -/
theorem blockWords_congr {m m' : Memory} {n n' : Nat}
    (h : ∀ i < 64, m.read (64 * n + i) = m'.read (64 * n' + i)) : blockWords m n = blockWords m' n' := by
  refine List.map_congr_left fun t ht => ?_
  have ht := List.mem_range.mp ht
  have e (i : Nat) (hi : i < 4) : m.read (wordAddr (16 * n + t) + i) = m'.read (wordAddr (16 * n' + t) + i) := by
    have := h (4 * t + i) (by omega)
    rw [show 64 * n + (4 * t + i) = wordAddr (16 * n + t) + i by simp only [wordAddr]; omega,
      show 64 * n' + (4 * t + i) = wordAddr (16 * n' + t) + i by simp only [wordAddr]; omega] at this
    exact this
  have e0 := e 0 (by omega)
  simp only [Nat.add_zero] at e0
  rw [Memory.readWord, Memory.readWord, e0, e 1 (by omega), e 2 (by omega), e 3 (by omega)]

/-- The chaining value depends on the compressed bytes only (R104). -/
theorem compressBlocks_congr {m m' : Memory} {n : Nat} (h : Chain) (e : ∀ a < 64 * n, m.read a = m'.read a) :
    compressBlocks m n h = compressBlocks m' n h := by
  induction n with
  | zero => rw [compressBlocks_zero, compressBlocks_zero]
  | succ n ih =>
    have hb : blockWords m n = blockWords m' n := blockWords_congr fun i hi => e _ (by omega)
    have hn : compressBlocks m n h = compressBlocks m' n h := ih fun a ha => e a (by omega)
    rw [compressBlocks_succ, compressBlocks_succ, hn, hb]

end Sys2Proof.Machine
end

