-- ==== Sys2Proof/Laws/Host.lean ====
section
/-! SUPPORT. Runs of several steps, and how the blocks of SB and the blocks of a message agree. -/

namespace Sys2Proof.Machine

/-! ### Runs -/

theorem run_of_next (M : Host.Core) {n : Nat} {s t : M.State} (h : M.step s = .next t) :
    M.run (n + 1) s = M.run n t := by rw [Host.Core.run, h]

/-- A run of `m` steps and then of `n` is a run of `m + n`. -/
theorem run_append (M : Host.Core) {m n : Nat} {s t : M.State} (h : M.run m s = .next t) :
    M.run (m + n) s = M.run n t := by
  induction m generalizing s with
  | zero => cases h; rw [Nat.zero_add]
  | succ m ih =>
    rw [show m + 1 + n = m + n + 1 by omega]
    rw [Host.Core.run] at h ⊢
    cases hs : M.step s with
    | next v => rw [hs] at h; exact ih h
    | fault r => rw [hs] at h; cases h
    | refused r => rw [hs] at h; cases h

/-- What one more step of a dutiful run says (R140): each duty now, the step taken, and the rest of the run dutiful. -/
theorem dutiful_succ {intent : HostIntent} {n : Nat} {staged placed : List (Nat × Nat)} {s : State} :
    dutiful intent (n + 1) staged placed s = true ↔
      (roffBelowLimit intent s = true ∧ nextDoesNotFault s = true ∧ nextIsReliable intent s = true ∧ nextCopiesPlaced placed s = true ∧
        nextIsStaleFree staged s = true) ∧
      ∃ t, step s = .next t ∧ dutiful intent n (stagedAfter staged s) (placedAfter placed s) t = true := by
  cases hs : step s <;> simp [dutiful, hs, and_assoc]

/-- With ERR = 0 every result may be relied on (R140). -/
theorem nextIsReliable_of_noError {intent : HostIntent} {s : State} (h : s.err = false) : nextIsReliable intent s = true := by
  simp [nextIsReliable, h]
  split <;> rfl

/-- Duty 5 is kept where ROFF is below 2^61, wanted or not (R140). -/
theorem roffBelowLimit_of_lt {intent : HostIntent} {s : State} (h : s.roff < 2 ^ 61) : roffBelowLimit intent s = true := by
  simp [roffBelowLimit, show s.roff < 2305843009213693952 from h]

/-- Where no standard trailer is wanted duty 5 asks nothing (R140). -/
theorem roffBelowLimit_of_unwanted {intent : HostIntent} {s : State} (h : intent.wantsTrailer s = false) : roffBelowLimit intent s = true := by
  simp [roffBelowLimit, h]

/-- A dutiful run compresses no stale byte. -/
theorem dutiful_staleFree {intent : HostIntent} {n : Nat} {staged placed : List (Nat × Nat)} {s : State} (h : dutiful intent n staged placed s = true) :
    staleFree n staged s = true := by
  induction n generalizing staged placed s with
  | zero => rfl
  | succ n ih =>
    obtain ⟨⟨-, -, -, -, hf⟩, t, hs, ht⟩ := dutiful_succ.mp h
    simp [staleFree, hf, hs, ih ht]

/-! ### Messages -/

theorem messageBlock_congr {m m' : List Byte} {n n' : Nat}
    (h : ∀ i < 64, m.getD (64 * n + i) 0 = m'.getD (64 * n' + i) 0) : messageBlock m n = messageBlock m' n' := by
  refine List.map_congr_left fun t ht => ?_
  have ht := List.mem_range.mp ht
  have e (i : Nat) (hi : i < 4) : m.getD (4 * (16 * n + t) + i) 0 = m'.getD (4 * (16 * n' + t) + i) 0 := by
    have := h (4 * t + i) (by omega)
    rw [show 64 * n + (4 * t + i) = 4 * (16 * n + t) + i by omega,
      show 64 * n' + (4 * t + i) = 4 * (16 * n' + t) + i by omega] at this
    exact this
  have e0 := e 0 (by omega)
  simp only [Nat.add_zero] at e0
  rw [messageWord, messageWord, e0, e 1 (by omega), e 2 (by omega), e 3 (by omega)]

/-- A block of SB whose bytes are a message's block has its words (R40). -/
theorem blockWords_eq_messageBlock {m : Memory} {msg : List Byte} {n n' : Nat}
    (h : ∀ i < 64, m.read (64 * n + i) = msg.getD (64 * n' + i) 0) : blockWords m n = messageBlock msg n' := by
  refine List.map_congr_left fun t ht => ?_
  have ht := List.mem_range.mp ht
  have e (i : Nat) (hi : i < 4) : m.read (wordAddr (16 * n + t) + i) = msg.getD (4 * (16 * n' + t) + i) 0 := by
    have := h (4 * t + i) (by omega)
    rw [show 64 * n + (4 * t + i) = wordAddr (16 * n + t) + i by simp only [wordAddr]; omega,
      show 64 * n' + (4 * t + i) = 4 * (16 * n' + t) + i by omega] at this
    exact this
  have e0 := e 0 (by omega)
  simp only [Nat.add_zero] at e0
  rw [messageWord, Memory.readWord, e0, e 1 (by omega), e 2 (by omega), e 3 (by omega)]

theorem hashBlocks_succ (msg : List Byte) (n : Nat) (h : Chain) :
    hashBlocks msg (n + 1) h = compressBlock (hashBlocks msg n h) (messageBlock msg n) := by
  simp [hashBlocks, List.range_succ]

theorem hashBlocks_congr {m m' : List Byte} {n : Nat} (h : Chain)
    (e : ∀ i < 64 * n, m.getD i 0 = m'.getD i 0) : hashBlocks m n h = hashBlocks m' n h := by
  induction n with
  | zero => simp [hashBlocks]
  | succ n ih =>
    rw [hashBlocks_succ, hashBlocks_succ, ih fun i hi => e i (by omega), messageBlock_congr fun i hi => e _ (by omega)]

/-- Compressing `n` blocks of SB that hold a message from block `a` on goes on from block `a` to block `a + n` (R101). -/
theorem compressBlocks_message {m : Memory} {msg : List Byte} {a n : Nat} (h : Chain)
    (e : ∀ i < 64 * n, m.read i = msg.getD (64 * a + i) 0) :
    compressBlocks m n (hashBlocks msg a h) = hashBlocks msg (a + n) h := by
  induction n with
  | zero => simp
  | succ n ih =>
    have hb : blockWords m n = messageBlock msg (a + n) := blockWords_eq_messageBlock fun i hi => by
      rw [e _ (by omega)]; congr 1; omega
    rw [compressBlocks_succ, ih fun i hi => e i (by omega), hb, ← Nat.add_assoc, hashBlocks_succ]

end Sys2Proof.Machine
end

