-- ==== Sys2Proof/Laws/PerInstr.lean ====
section
/-! SUPPORT. A statement about every command, one lemma per constructor of Instr. -/

namespace Sys2Proof.Laws.Encoding

/-- The fields of a command's encoding that carry no operand (R56, R60): a legal opcode, P only with opcode 4, RSV zero. -/
def Statement (i : Instr) : Prop :=
  (encodeFields i).op ≤ 0x08 ∧ (encodeFields i).rsv = 0 ∧ ((encodeFields i).p = 1 → (encodeFields i).op = 0x04)

theorem nop : Statement .nop := by simp [Statement, encodeFields]

theorem init : Statement .init := by simp [Statement, encodeFields]

theorem pack (src count dst : Nat) : Statement (.pack src count dst) := by simp [Statement, encodeFields]

theorem pad (len msgLen : Nat) : Statement (.pad len msgLen) := by simp [Statement, encodeFields]

theorem compress (len : Nat) : Statement (.compress len) := by simp [Statement, encodeFields]

theorem compressP : Statement .compressP := by simp [Statement, encodeFields]

theorem rdreg (r : Nat) : Statement (.rdreg r) := by simp [Statement, encodeFields]

theorem wrreg (r : Nat) (v : Word) : Statement (.wrreg r v) := by simp [Statement, encodeFields]

theorem rdsb (j : Nat) : Statement (.rdsb j) := by simp [Statement, encodeFields]

theorem wrsb (j : Nat) (v : Word) : Statement (.wrsb j v) := by simp [Statement, encodeFields]

end Sys2Proof.Laws.Encoding
end

