-- ==== Sys2Proof/Laws/Step.lean ====
section
/-! SUPPORT. What one command and one step can do: every command is `finish` of a rule that leaves STATUS and the host alone,
and a step is one of the host's actions. -/

namespace Sys2Proof.Machine

/-- What a rule that succeeds leaves as it was: STATUS, the configuration, and everything of the host's. -/
structure SameHost (s t : State) : Prop where
  status : t.status = s.status
  cfg : t.cfg = s.cfg
  src : t.src = s.src
  roff : t.roff = s.roff
  pending : t.pending = s.pending
  pc : t.pc = s.pc
  results : t.results = s.results

theorem SameHost.refl (s : State) : SameHost s s := ⟨rfl, rfl, rfl, rfl, rfl, rfl, rfl⟩

/-- Every command ends by `finish`, as a read or not, of a rule; a rule that succeeds leaves STATUS and the host alone. -/
theorem exec_is_finish (i : Instr) :
    ∃ (isRead : Bool) (rule : State → RuleOutcome),
      (∀ s, exec i s = s.finish isRead (rule s)) ∧
      (isRead = true ↔ (∃ r, i = .rdreg r) ∨ ∃ j, i = .rdsb j) ∧
      ∀ s u r, rule s = .ok u r → SameHost s u := by
  cases i with
  | nop =>
    refine ⟨false, _, fun s => rfl, by simp, fun s u r h => ?_⟩
    cases h; exact .refl s
  | init =>
    refine ⟨false, _, fun s => rfl, by simp, fun s u r h => ?_⟩
    cases h; exact ⟨rfl, rfl, rfl, rfl, rfl, rfl, rfl⟩
  | pack src count dst =>
    refine ⟨false, _, fun s => rfl, by simp, fun s u r h => ?_⟩
    simp only [rulePack] at h
    split at h
    · cases h; exact .refl s
    split at h
    · cases h
    split at h
    · cases h
    cases h; exact ⟨rfl, rfl, rfl, rfl, rfl, rfl, rfl⟩
  | pad len msgLen =>
    refine ⟨false, _, fun s => rfl, by simp, fun s u r h => ?_⟩
    simp only [rulePad] at h
    split at h
    · cases h
    cases h; exact ⟨rfl, rfl, rfl, rfl, rfl, rfl, rfl⟩
  | compress len =>
    refine ⟨false, _, fun s => rfl, by simp, fun s u r h => ?_⟩
    simp only [ruleCompress] at h
    split at h
    · cases h
    split at h
    · cases h
    cases h; exact ⟨rfl, rfl, rfl, rfl, rfl, rfl, rfl⟩
  | compressP =>
    refine ⟨false, _, fun s => rfl, by simp, fun s u r h => ?_⟩
    simp only [ruleCompress] at h
    split at h
    · cases h
    split at h
    · cases h
    cases h; exact ⟨rfl, rfl, rfl, rfl, rfl, rfl, rfl⟩
  | rdreg n =>
    refine ⟨true, _, fun s => rfl, by simp, fun s u r h => ?_⟩
    simp only [ruleRdreg] at h
    split at h
    · cases h; exact .refl s
    · cases h
  | wrreg n v =>
    refine ⟨false, _, fun s => rfl, by simp, fun s u r h => ?_⟩
    simp only [ruleWrreg] at h
    split at h
    · cases h
    split at h
    · cases h
    cases h; exact ⟨rfl, rfl, rfl, rfl, rfl, rfl, rfl⟩
  | rdsb j =>
    refine ⟨true, _, fun s => rfl, by simp, fun s u r h => ?_⟩
    simp only [ruleRdsb] at h
    split at h
    · cases h; exact .refl s
    · cases h
  | wrsb j v =>
    refine ⟨false, _, fun s => rfl, by simp, fun s u r h => ?_⟩
    simp only [ruleWrsb] at h
    split at h
    · cases h; exact ⟨rfl, rfl, rfl, rfl, rfl, rfl, rfl⟩
    · cases h

/-- Every command word ends by `finish` too, the ones that do not decode by a fault. -/
theorem runCommand_is_finish (w : CommandWord) :
    ∃ (isRead : Bool) (rule : State → RuleOutcome),
      (∀ s, runCommand w s = s.finish isRead (rule s)) ∧ ∀ s u r, rule s = .ok u r → SameHost s u := by
  unfold runCommand
  cases decode w with
  | ok i =>
    obtain ⟨isRead, rule, h, -, hs⟩ := exec_is_finish i
    exact ⟨isRead, rule, h, hs⟩
  | error c => exact ⟨false, fun _ => .raise c, fun _ => rfl, fun _ _ _ h => by cases h⟩

namespace State

theorem afterCommand_eq_next {o : Host.Outcome State Fault Refusal} {t : State} (h : afterCommand o = .next t) :
    ∃ u, o = .next u ∧ t = u.receive := by
  cases o with
  | next u => exact ⟨u, rfl, by simpa [afterCommand] using h.symm⟩
  | fault r => simp [afterCommand] at h
  | refused r => simp [afterCommand] at h

end State

theorem refusal_eq_none_iff (cfg : Config) : cfg.refusal = none ↔ cfg.legal = true := by
  cases h1 : cfg.legalChunk <;> cases h2 : cfg.legalSource <;> simp [Config.refusal, Config.legal, h1, h2]

/-- What a step that leads to a next state did: nothing, a command, RST, a host write to SRC, or an update of ROFF. -/
theorem step_cases {s t : State} (h : step s = .next t) :
    s.cfg.legal = true ∧
    ((s.pending = [] ∧ t = s) ∨
     (∃ w rest u, s.pending = .command w :: rest ∧ runCommand w (s.issue rest) = .next u ∧ t = u.receive) ∨
     (∃ d rest, s.pending = .rst d :: rest ∧ t = (s.setPending rest).assertReset d) ∨
     (∃ base bytes rest, s.pending = .srcWrite base bytes :: rest ∧
        (bytes = [] ∧ t = s.setPending rest ∨
          bytes ≠ [] ∧ base + bytes.length ≤ s.cfg.srcLen ∧ t = (s.setPending rest).setSource (s.src.writeBytes base bytes))) ∨
     (∃ n rest, s.pending = .setRoff n :: rest ∧ t = (s.setPending rest).setRoff n)) := by
  unfold step at h
  cases hr : s.cfg.refusal with
  | some r => rw [hr] at h; simp at h
  | none =>
    rw [hr] at h
    refine ⟨(refusal_eq_none_iff _).mp hr, ?_⟩
    simp only at h
    split at h
    · exact .inl ⟨‹_›, by simpa using h.symm⟩
    · obtain ⟨u, h1, h2⟩ := State.afterCommand_eq_next h
      exact .inr (.inl ⟨_, _, u, ‹_›, h1, h2⟩)
    · exact .inr (.inr (.inl ⟨_, _, ‹_›, by simpa using h.symm⟩))
    · refine .inr (.inr (.inr (.inl ⟨_, _, _, ‹_›, ?_⟩)))
      simp only [State.hostWriteSource] at h
      split at h
      · exact .inl ⟨‹_›, by simpa using h.symm⟩
      · split at h
        · exact .inr ⟨‹_›, ‹_›, by simpa using h.symm⟩
        · simp at h
    · exact .inr (.inr (.inr (.inr ⟨_, _, ‹_›, by simpa using h.symm⟩)))

end Sys2Proof.Machine
end

