-- ==== Sys2Proof/Tests/Slice0.lean ====
section
/-! SUPPORT. Tests: the checks of WellFormed, the words of every command, one step each (expected values from
95_test_vectors.md), and for every obligation with hypotheses a witness that meets them. -/

namespace Sys2Proof.Tests

open Sys2Proof.Machine

/-! ### Small states -/

/-- A block with `C = 64` and the sixteen source bytes `00 .. 0f` (95_test_vectors.md 2.5), right after reset. -/
def block : State :=
  { State.reset with cfg := ⟨64, 16⟩, src := (List.range 15).map fun i => (i + 1, BitVec.ofNat 8 (i + 1)) }

/-- The block with every SB byte `0xAA`. -/
def filled : State := { block with sb := (List.range 128).map fun i => (i, 0xAA#8) }

/-- The block with the padded "abc" in SB words 0 .. 15 (95_test_vectors.md 2.2). -/
def abcBlock : State := { block with sb := [(0, 0x61#8), (1, 0x62#8), (2, 0x63#8), (3, 0x80#8), (63, 0x18#8)] }

/-- The block with H all zero. -/
def cleared : State := { block with h := ⟨0, 0, 0, 0, 0⟩ }

/-- The block after `COMPRESS 65`: ERR = 1 with cause 6 (95_test_vectors.md 2.10). -/
def failed : State := { block with status := 0x00000601#32 }

/-- The outcome is a next state, and it passes the check. -/
def holdsOf (o : Host.Outcome State Fault Refusal) (check : State → Bool) : Bool :=
  match o with
  | .next t => check t
  | .fault _ => false
  | .refused _ => false

/-- The outcome is this fault. -/
def faultsWith (o : Host.Outcome State Fault Refusal) (r : Fault) : Bool :=
  match o with
  | .next _ => false
  | .fault r' => r' == r
  | .refused _ => false

/-- The outcome is this refusal. -/
def refusedWith (o : Host.Outcome State Fault Refusal) (r : Refusal) : Bool :=
  match o with
  | .next _ => false
  | .fault _ => false
  | .refused r' => r' == r

/-- The first state changed in STATUS and its result only. -/
def onlyStatus (s t : State) (status : Word) : Bool := t == { s with status := status, result := 0x00000000#32 }

/-! ### WellFormed refuses each operand that does not fit -/

theorem test_wellFormed_pack_src : (Instr.pack 4294967296 0 0).wellFormed = false := by decide
theorem test_wellFormed_pack_count : (Instr.pack 0 4294967296 0).wellFormed = false := by decide
theorem test_wellFormed_pack_dst : (Instr.pack 0 0 4294967296).wellFormed = false := by decide
theorem test_wellFormed_pad_len : (Instr.pad 4294967296 0).wellFormed = false := by decide
theorem test_wellFormed_pad_msgLen : (Instr.pad 0 18446744073709551616).wellFormed = false := by decide
theorem test_wellFormed_compress : (Instr.compress 4294967296).wellFormed = false := by decide
theorem test_wellFormed_rdreg : (Instr.rdreg 4294967296).wellFormed = false := by decide
theorem test_wellFormed_wrreg : (Instr.wrreg 4294967296 0#32).wellFormed = false := by decide
theorem test_wellFormed_rdsb : (Instr.rdsb 4294967296).wellFormed = false := by decide
theorem test_wellFormed_wrsb : (Instr.wrsb 4294967296 0#32).wellFormed = false := by decide

/-! ### The words, from R53, R56 and R58: OPC, OPB, OPA, then RSV, P and OP -/

theorem test_decode_nop : decode 0x00000000000000000000000000000000#128 = .ok .nop := by decide
theorem test_decode_init : decode 0x00000000000000000000000000000001#128 = .ok .init := by decide
theorem test_decode_pack : decode 0x00000004000000030000000700000002#128 = .ok (.pack 7 3 4) := by decide
theorem test_decode_pad : decode 0x00000001234567890000000a00000003#128 = .ok (.pad 10 0x123456789) := by decide
theorem test_decode_compress : decode 0x00000000000000000000008000000004#128 = .ok (.compress 128) := by decide
theorem test_decode_compressP : decode 0x00000000000000000000000000000104#128 = .ok .compressP := by decide
theorem test_decode_rdreg : decode 0x00000000000000000000000600000005#128 = .ok (.rdreg 6) := by decide
theorem test_decode_wrreg : decode 0x00000000deadbeef0000000200000006#128 = .ok (.wrreg 2 0xDEADBEEF#32) := by decide
theorem test_decode_rdsb : decode 0x00000000000000000000001f00000007#128 = .ok (.rdsb 31) := by decide
theorem test_decode_wrsb : decode 0x00000000000000050000001f00000008#128 = .ok (.wrsb 31 5#32) := by decide
theorem test_encode_pad : encode (.pad 10 0x123456789) = 0x00000001234567890000000a00000003#128 := by decide

/-- The words of 95_test_vectors.md 2.9 that the decoder refuses. -/
theorem test_decode_refuses :
    decode 0x00000000000000000000000000000009#128 = .error .illegalCmd ∧
    decode 0x000000030000000200000001000000ff#128 = .error .illegalCmd ∧
    decode 0x00000000000000000000000000000200#128 = .error .reservedField ∧
    decode 0x00000000000000000000000100000001#128 = .error .reservedField ∧
    decode 0x00000000000000010000000000000102#128 = .error .reservedField ∧
    decode 0x00000000000000010000004000000004#128 = .error .reservedField ∧
    decode 0x00000000000000000000004000000104#128 = .error .reservedField ∧
    decode 0x00000001000000010000000000000006#128 = .error .reservedField := by decide

theorem test_decodeTableWord : decodeTableWord 64 0x0000000600000005 = some (.rdreg 6) := by decide

/-! ### One step each (95_test_vectors.md 2.5 to 2.10) -/

theorem test_nop_returns_zero : holdsOf (exec .nop abcBlock) (fun t => t == abcBlock) = true := by decide

theorem test_init_sets_iv : holdsOf (exec .init cleared) (fun t => t == block) = true := by decide

theorem test_pack_unaligned : holdsOf (exec (.pack 3 9 5) filled) (fun t =>
    t.sbWord 0 == 0xaaaaaaaa#32 && t.sbWord 1 == 0xaa030405#32 && t.sbWord 2 == 0x06070809#32 &&
    t.sbWord 3 == 0x0a0baaaa#32 && t.sbWord 4 == 0xaaaaaaaa#32) = true := by decide

theorem test_pack_source_range_first : holdsOf (exec (.pack 10 7 125) filled) (onlyStatus filled · 0x00000301#32) = true := by
  decide

theorem test_pad_abc : holdsOf (exec (.pad 3 3) filled) (fun t =>
    t.plen == 64#32 && t.sbWord 0 == 0xaaaaaa80#32 && t.sbWord 1 == 0#32 && t.sbWord 14 == 0#32 &&
    t.sbWord 15 == 0x00000018#32 && t.sbWord 16 == 0xaaaaaaaa#32) = true := by decide

theorem test_pad_range : holdsOf (exec (.pad 120 0) block) (onlyStatus block · 0x00000501#32) = true := by decide

theorem test_compress_alignment : holdsOf (exec (.compress 65) block) (onlyStatus block · 0x00000601#32) = true := by
  decide

theorem test_compressP_no_padding : holdsOf (exec .compressP abcBlock) (fun t => t == abcBlock) = true := by decide

theorem test_rdreg_padcap : holdsOf (exec (.rdreg 8) block) (fun t => t.result == 0x00000080#32) = true := by decide

theorem test_rdreg_status_after_fault :
    holdsOf (exec (.rdreg 6) failed) (fun t => t.result == 0x00000601#32) = true := by decide

theorem test_wrreg_h2 : holdsOf (exec (.wrreg 2 0xDEADBEEF#32) block) (fun t =>
    t.h == { block.h with h2 := 0xDEADBEEF#32 }) = true := by decide

theorem test_wrreg_readonly : holdsOf (exec (.wrreg 5 1#32) block) (onlyStatus block · 0x00000901#32) = true := by
  decide

theorem test_rdsb_word : holdsOf (exec (.rdsb 0) abcBlock) (fun t => t.result == 0x61626380#32) = true := by decide

theorem test_rdsb_range : holdsOf (exec (.rdsb 32) block) (onlyStatus block · 0x00000401#32) = true := by decide

theorem test_wrsb_last_word : holdsOf (exec (.wrsb 31 5#32) filled) (fun t =>
    t.sbWord 31 == 5#32 && t.sbWord 30 == 0xaaaaaaaa#32) = true := by decide

theorem test_wrsb_dropped : holdsOf (exec (.wrsb 0 1#32) failed) (fun t => t == failed) = true := by decide

/-- The first command after reset (R159). -/
theorem test_step_first_command : holdsOf (step (State.reset.withFetchWord 64 0x0000000000000005)) (fun t =>
    t.results == [0x67452301#32] && t.pc == 1 && t.pending == []) = true := by decide

/-- RST clears the fault and takes the draw (95_test_vectors.md 2.10). -/
theorem test_step_rst : holdsOf (step { failed with pending := [.rst [(5, 0x77#8)]] }) (fun t =>
    t.status == 0#32 && t.sb == [(5, 0x77#8)]) = true := by decide

theorem test_step_source_write_outside :
    faultsWith (step { block with pending := [.srcWrite 16 [0x61#8]] }) .srcWriteOutside = true := by decide

/-- "Zero-length update calls are valid and must not error" (R128), at a base above SRC_LEN too (log 11). -/
theorem test_step_empty_source_write :
    holdsOf (step { block with pending := Controller.updateBytes 64 17 0 [] }) (fun t => t == block) = true := by decide

/-! ### The host's duties (R140) -/

/-- A host that wants a standard trailer and relies on every result. -/
def strict : HostIntent := ⟨fun _ => true, fun _ => true⟩

/-- A host that wants no standard trailer and relies on no result. -/
def careless : HostIntent := ⟨fun _ => false, fun _ => false⟩

/-- A host that wants a standard trailer only after its first command. -/
def late : HostIntent := ⟨fun s => decide (0 < s.pc), fun _ => true⟩

/-- One PACK of placed bytes, PAD and COMPRESS.P: every duty is kept. Without the placing, or without PAD, one is broken. -/
theorem test_dutiful_kept :
    dutiful strict 4 [] [] { block with pending := [.srcWrite 0 [0x61#8, 0x62#8, 0x63#8], Controller.issueOf (.pack 0 3 0),
      Controller.issueOf (.pad 3 3), Controller.issueOf .compressP] } = true ∧
    dutiful strict 1 [] [] { block with pending := Controller.issueAll [.pack 0 3 0] } = false ∧
    dutiful strict 1 [(0, 63)] [] { block with pending := Controller.issueAll [.compress 64] } = false := by decide

/-- An RST after a fault does not mend the duty the fault broke (duty 2), though the run ends with ERR = 0. -/
theorem test_dutiful_sees_fault_before_rst :
    dutiful strict 2 [] [] { block with pending := [Controller.issueOf (.rdreg 9), .rst []] } = false ∧
    holdsOf (core.run 2 { block with pending := [Controller.issueOf (.rdreg 9), .rst []] }) (fun t => !t.err) = true := by decide

/-- After a fault a host may read STATUS, but must assert RST before it relies on a result, and must keep its operands in range all
the same (duty 2). -/
theorem test_dutiful_reads_after_fault :
    dutiful strict 2 [] [] { failed with pending := [Controller.issueOf (.rdreg 6), .rst []] } = false ∧
    dutiful careless 2 [] [] { failed with pending := [Controller.issueOf (.rdreg 6), .rst []] } = true ∧
    dutiful careless 2 [] [] { failed with pending := [Controller.issueOf (.rdreg 9), .rst []] } = false ∧
    dutiful strict 2 [] [] { failed with pending := [.rst [], Controller.issueOf (.rdreg 6)] } = true := by decide

/-- A PAD with ROFF at 2^61 breaks duty 5 where a standard trailer is wanted, though ROFF is 0 at the end. -/
theorem test_dutiful_sees_large_roff :
    dutiful strict 2 [] []
      { block with roff := 2305843009213693952, pending := [Controller.issueOf (.pad 0 0), .setRoff 0] } = false ∧
    dutiful strict 2 [] []
      { block with roff := 2305843009213693951, pending := [Controller.issueOf (.pad 0 0), .setRoff 0] } = true := by
  decide

/-- Where no standard trailer is wanted, or none before the command index is 1, ROFF at 2^61 breaks no duty. -/
theorem test_dutiful_unwanted_trailer :
    dutiful careless 2 [] []
      { block with roff := 2305843009213693952, pending := [Controller.issueOf (.pad 0 0), .setRoff 0] } = true ∧
    dutiful late 1 [] []
      { block with roff := 2305843009213693952, pending := [.setRoff 0, Controller.issueOf (.pad 0 0)] } = true := by
  decide

theorem test_step_illegal_chunk : refusedWith (step { block with cfg := ⟨100, 16⟩ }) .configurationError = true := by
  decide

/-- Select, parity and majority (95_test_vectors.md 2.1). -/
theorem test_round_functions :
    roundFunction 0 0xFFFF0000#32 0x12345678#32 0x9ABCDEF0#32 = 0x1234DEF0#32 ∧
    roundFunction 20 0xFFFF0000#32 0x12345678#32 0x9ABCDEF0#32 = 0x77778888#32 ∧
    roundFunction 40 0xFFFF0000#32 0x12345678#32 0x9ABCDEF0#32 = 0x9ABC5670#32 ∧
    rotl 0x12345678#32 5 = 0x468ACF02#32 ∧ rotl 0x00000003#32 30 = 0xC0000000#32 := by decide

/-- R66: a name, a comment and a fit error. -/
theorem test_assembler_register_name :
    assembleLine ['R', 'D', 'R', 'E', 'G', ' ', 'P', 'A', 'D', 'C', 'A', 'P', ' ', ';', ' ', 'x'] = .ok [.rdreg 8] := by decide

theorem test_assembler_clrblk :
    assembleLine ['C', 'L', 'R', 'B', 'L', 'K', ' ', '1', '6'] =
      .ok ((List.range 16).map fun k => .wrsb (16 + k) 0x00000000#32) := by decide

/-! ### Witnesses: a concrete state and operands that meet an obligation's hypotheses -/

theorem witness_NopChangesNothing :
    (0x0#128 : CommandWord).extractLsb' 0 8 = 0x00#8 ∧ (0x100#128 : CommandWord).extractLsb' 0 8 = 0x00#8 := by decide

theorem witness_InitSetsChainToIv :
    (0x1#128 : CommandWord).extractLsb' 0 8 = 0x01#8 ∧ (0x10000000000000001#128 : CommandWord).extractLsb' 0 8 = 0x01#8 ∧
    cleared.err = false := by decide

theorem witness_RdregReturnsEachRegister :
    (0x00000000000000000000000800000005#128 : CommandWord).extractLsb' 0 8 = 0x05#8 ∧ 8 < 9 ∧ block.err = false := by decide

theorem witness_WrregWritesOneChainRegister :
    (0x00000000deadbeef0000000200000006#128 : CommandWord).extractLsb' 0 8 = 0x06#8 ∧ block.err = false ∧
    (5 ≤ 5 ∧ 5 ≤ 8) ∧ (5 ≤ 8 ∧ 8 ≤ 8) ∧ 8 < 9 := by decide

theorem witness_RdsbReturnsBigEndianWord :
    (0x00000000000000000000001f00000007#128 : CommandWord).extractLsb' 0 8 = 0x07#8 ∧
    31 < (block.cfg.chunk + 64) / 4 ∧ (block.cfg.chunk + 64) / 4 ≤ 32 ∧ block.err = false := by decide

theorem witness_WrsbWritesFourBytes :
    (0x00000000000000050000001f00000008#128 : CommandWord).extractLsb' 0 8 = 0x08#8 ∧
    31 < (block.cfg.chunk + 64) / 4 ∧ (block.cfg.chunk + 64) / 4 ≤ 32 ∧ block.err = false := by decide

/-- The last legal copy, and one byte past the end of SRC and of SB. -/
theorem witness_PackCopiesSourceBytes :
    (0x00000004000000030000000700000002#128 : CommandWord).extractLsb' 0 8 = 0x02#8 ∧ block.err = false ∧
    (0 < 16 ∧ 0 + 16 ≤ block.cfg.srcLen ∧ 112 + 16 ≤ block.cfg.chunk + 64) ∧
    (0 < 1 ∧ block.cfg.srcLen < 16 + 1) ∧
    (0 < 16 ∧ 0 + 16 ≤ block.cfg.srcLen ∧ block.cfg.chunk + 64 < 113 + 16) := by decide

theorem witness_PackedBytesStandInWords :
    ∃ t, block.err = false ∧ exec (.pack 3 9 5) block = .next t ∧ t.err = false ∧
      (0 < 9 ∧ 1 < 4 ∧ 5 + 0 = 4 * 1 + 1) ∧ (8 < 9 ∧ 1 < 4 ∧ 5 + 8 = 4 * 3 + 1) :=
  ⟨_, rfl, rfl, rfl, by decide, by decide⟩

/-- The largest length that fits SB, and one more. -/
theorem witness_PadWritesPaddingAndPlen :
    (0x00000000000000460000000600000003#128 : CommandWord).extractLsb' 0 8 = 0x03#8 ∧ block.err = false ∧
    (128 = 64 * ((119 + 9 + 63) / 64) ∧ 128 ≤ block.cfg.chunk + 64) ∧
    (192 = 64 * ((120 + 9 + 63) / 64) ∧ block.cfg.chunk + 64 < 192) := by decide

theorem witness_PadFaultsExactlyAboveRange :
    block.cfg.legal = true ∧ block.err = false ∧ block.cfg.chunk + 55 < 120 ∧ 119 ≤ block.cfg.chunk + 55 ∧
    63 ≤ block.cfg.chunk - 1 := by decide

theorem witness_PaddedLengthIsLeast :
    (128 % 64 = 0 ∧ 64 + 9 ≤ 128) ∧ 55 % 64 ≤ 55 ∧ 56 ≤ 56 % 64 := by decide

theorem witness_TrailerExactBelowLimit : 2 ^ 61 - 1 < 2 ^ 61 := by decide

theorem witness_CompressChainsBlocks :
    (0x00000000000000000000000000000104#128 : CommandWord).extractLsb' 0 8 = 0x04#8 ∧ abcBlock.err = false ∧
    abcBlock.plenLegal ∧ 64 * (1 + 1) ≤ abcBlock.cfg.chunk + 64 ∧ 65 % 64 ≠ 0 ∧ (192 % 64 = 0 ∧ abcBlock.cfg.chunk + 64 < 192) := by decide

/-- PLEN zero, and a PAD that does not fault. -/
theorem witness_CompressPTakesPlenAsLength :
    block.err = false ∧ block.plen = 0x00000000#32 ∧ block.cfg.legal = true ∧
    ∃ t, exec (.pad 119 0) block = .next t ∧ t.err = false :=
  ⟨rfl, rfl, by decide, _, rfl, rfl⟩

/-- A padded region that fills SB. -/
def padFilled : State := { abcBlock with plen := 0x00000080#32 }

theorem witness_CompressPCompletesOnLegalPlen :
    padFilled.err = false ∧ padFilled.plen.toNat % 64 = 0 ∧ padFilled.plen.toNat = padFilled.cfg.chunk + 64 := by decide

theorem witness_ScheduleFollowsRecurrence :
    15 < 16 ∧ (List.replicate 16 (1 : Word)).length = 16 ∧ 15 < 16 ∧ (16 ≤ 16 ∧ 79 < 80) := by decide

theorem witness_CompressBlockRunsEightyRounds : (List.replicate 16 (1 : Word)).length = 16 ∧ 79 < 80 := by decide

theorem witness_RoundFunctionsAndConstants :
    19 < 20 ∧ (20 ≤ 20 ∧ 39 < 40) ∧ (40 ≤ 40 ∧ 59 < 60) ∧ (60 ≤ 60 ∧ 79 < 80) ∧ 31 < 32 := by decide

theorem witness_RotlMovesEachBit : (0 < 1 ∧ 1 < 32 ∧ 0 < 32) ∧ (0 < 31 ∧ 31 < 32 ∧ 31 < 32) := by decide

/-- Two states that agree on the compressed block only. -/
theorem witness_CompressReadsOnlyItsBlocks :
    ∃ t, abcBlock.err = false ∧ ({ abcBlock with sb := abcBlock.sb ++ [(64, 0x01#8)] } : State).err = false ∧
      64 ≤ abcBlock.cfg.chunk + 64 ∧
      (∀ a, a < 64 → abcBlock.sb.read a = ({ abcBlock with sb := abcBlock.sb ++ [(64, 0x01#8)] } : State).sb.read a) ∧
      exec (.compress 64) abcBlock = .next t ∧ t.err = false :=
  ⟨_, rfl, rfl, by decide, by decide, rfl, rfl⟩

/-- Two blocks of zeros, each compressed on its own. -/
theorem witness_SeparateBlocksEqualOneBatch :
    block.err = false ∧ 64 * 2 ≤ block.cfg.chunk + 64 ∧
    (∀ n, n < 2 → ∀ i, i < 64 → Memory.read [] i = block.sb.read (64 * n + i)) ∧
    ∀ n, n < 2 → exec (.compress 64) { block with h := compressBlocks [] n block.h, sb := [] } =
      .next { block with h := compressBlocks [] (n + 1) block.h, sb := [], result := 0x00000000#32 } := by
  refine ⟨rfl, by decide, fun n _ i _ => rfl, fun n _ => ?_⟩
  have hb : blockWords [] n = blockWords [] 0 := blockWords_congr fun _ _ => rfl
  have e := State.finish_ok (s := { block with h := compressBlocks [] n block.h, sb := [] })
    (show block.err = false from rfl) false
    (State.setChain (compressBlocks [] 1 (compressBlocks [] n block.h)) { block with h := compressBlocks [] n block.h, sb := [] })
    0x00000000#32
  rw [compressBlocks_succ [] n, hb]
  exact e

theorem witness_WorkedExampleAbcBlock :
    abcBlock.err = false ∧ abcBlock.h = Chain.iv ∧ abcBlock.sbWord 0 = 0x61626380#32 ∧
    (∀ j, j < 15 → 1 ≤ j → abcBlock.sbWord j = 0x00000000#32) ∧ abcBlock.sbWord 15 = 0x00000018#32 := by
  refine ⟨rfl, rfl, by decide, by decide, by decide⟩

theorem witness_FaultChangesOnlyStatus :
    ∃ t, runCommand 0x00000000000000000000004100000004#128 block = .next t ∧ t.status ≠ block.status :=
  ⟨{ block with status := 0x00000601#32, result := 0x00000000#32 }, rfl, by decide⟩

/-- A read, a fault and a dropped command. -/
theorem witness_OnlyReadsReturnWords :
    (∃ t, runCommand 0x00000000000000000000000800000005#128 block = .next t) ∧
    (∃ t, runCommand 0x00000000000000000000002000000007#128 block = .next t) ∧
    ∃ t, runCommand 0x1#128 failed = .next t :=
  ⟨⟨_, rfl⟩, ⟨_, rfl⟩, _, rfl⟩

theorem witness_ErrorStateDropsCommands :
    failed.err = true ∧ decode 0x00000000000000000000000000000001#128 = .ok .init ∧
    decode 0x00000000000000000000000000000009#128 = .error .illegalCmd ∧
    failed.readRegister 8 = some 0x00000080#32 ∧ failed.readRegister 9 = none ∧
    31 < (failed.cfg.chunk + 64) / 4 ∧ (failed.cfg.chunk + 64) / 4 ≤ 32 := by decide

/-- A step that leaves STATUS, an RST, and a first fault. -/
theorem witness_OnlyResetClearsStatus :
    (∃ t, step block = .next t) ∧ (∃ t, step { failed with pending := [.rst []] } = .next t) ∧
    ∃ t, step { block with pending := [.command 0x00000000000000000000004100000004#128] } = .next t :=
  ⟨⟨_, rfl⟩, ⟨_, rfl⟩, _, rfl⟩

theorem witness_ReservedEncodingsFault :
    block.err = false ∧ 0x08#8 < (0x9#128 : CommandWord).extractLsb' 0 8 ∧
    ((0x208#128 : CommandWord).extractLsb' 0 8 ≤ 0x08#8 ∧ (0x208#128 : CommandWord).extractLsb' 9 23 ≠ 0) ∧
    ((0x103#128 : CommandWord).extractLsb' 0 8 ≤ 0x08#8 ∧ (0x103#128 : CommandWord).getLsbD 8 = true ∧
      (0x103#128 : CommandWord).extractLsb' 0 8 ≠ 0x04#8) := by decide

/-- Every operand at its largest value. -/
theorem witness_DecodeOfEncode :
    (Instr.pack 4294967295 4294967295 4294967295).wellFormed = true ∧
    (Instr.pad 4294967295 18446744073709551615).wellFormed = true ∧ (Instr.compress 4294967295).wellFormed = true ∧
    (Instr.wrreg 4294967295 0xFFFFFFFF#32).wellFormed = true := by decide

theorem witness_LegalWordIsItsEncoding :
    decode 0x00000001234567890000000a00000003#128 = .ok (.pad 10 0x123456789) ∧
    (decode 0x200#128 = .error .reservedField ∧ (0x200#128 : CommandWord).extractLsb' 0 8 ≤ 0x08#8) ∧
    (decode 0x9#128 = .error .illegalCmd ∧ ¬ (0x9#128 : CommandWord).extractLsb' 0 8 ≤ 0x08#8) := by decide

theorem witness_StepRunsDecodedCommand :
    ({ block with pending := [.command 0x1#128] } : State).cfg.legal = true ∧
    ({ block with pending := [.command 0x1#128] } : State).pending = [.command 0x1#128] ∧ decode 0x1#128 = .ok .init := by decide

/-- The invariant at the test state, which also starts the host routines below. -/
theorem inv_block : block.Inv :=
  ⟨by decide, by decide, by decide, by decide, by decide, by decide, by decide⟩

theorem witness_StepKeepsInvariant : block.Inv ∧ ∃ t, step block = .next t := ⟨inv_block, _, rfl⟩

theorem witness_ResetMeetsInvariant : (⟨64, 16⟩ : Config).legal = true ∧ (⟨4294967168, 4294967296⟩ : Config).legal = true := by decide

theorem witness_RstSetsResetValues :
    ({ failed with pending := [.rst [(5, 0x77#8)]] } : State).cfg.legal = true ∧
    ({ failed with pending := [.rst [(5, 0x77#8)]] } : State).pending = [.rst [(5, 0x77#8)]] ∧ 127 < failed.cfg.chunk + 64 := by decide

/-- Zero, a size that is no multiple of 64, and the first multiple of 64 that is too large. -/
theorem witness_IllegalChunkIsRefused :
    (⟨0, 16⟩ : Config).chunk = 0 ∧ (⟨100, 16⟩ : Config).chunk % 64 ≠ 0 ∧ 2 ^ 32 - 128 < (⟨4294967232, 16⟩ : Config).chunk := by decide

theorem witness_BlockHoldsBetweenCommands :
    block.cfg.legal = true ∧ block.pending = [] ∧
    (∃ t, step { block with pending := [.setRoff 5] } = .next t) ∧
    (∀ w rest, ([.setRoff 5] : List HostAction) ≠ .command w :: rest) ∧
    ∀ d rest, ([.setRoff 5] : List HostAction) ≠ .rst d :: rest :=
  ⟨by decide, rfl, ⟨_, rfl⟩, fun _ _ => by simp, fun _ _ => by simp⟩

/-- A command that changes H, one that changes SB and one that changes PLEN. -/
theorem witness_OnlyItsWritersChangeState :
    (∃ t, exec .init cleared = .next t ∧ t.h ≠ cleared.h) ∧
    (∃ t, exec (.wrsb 0 1#32) block = .next t ∧ t.sb ≠ block.sb) ∧
    ∃ t, exec (.pad 0 0) block = .next t ∧ t.plen ≠ block.plen :=
  ⟨⟨_, rfl, by decide⟩, ⟨_, rfl, by decide⟩, _, rfl, by decide⟩

theorem witness_CommandsLeaveHostStateAlone : ∃ t, exec (.pack 3 9 5) block = .next t := ⟨_, rfl⟩

/-- A source that differs at byte 0, which `PACK 3, 9, 5` does not read. -/
theorem witness_OnlyPackReadsItsSourceBytes :
    (∃ t, exec (.pack 3 9 5) block = .next t) ∧
    ∀ k, k < 9 → Memory.read ((0, 0xEE#8) :: block.src) (3 + k) = block.src.read (3 + k) :=
  ⟨⟨_, rfl⟩, by decide⟩

theorem witness_RepeatedCommandsAgree :
    (∃ t u, exec (.wrsb 0 1#32) block = .next t ∧ exec (.wrsb 0 1#32) t = .next u) ∧
    ∃ t, exec (.rdreg 0) block = .next t ∧ t.err = block.err :=
  ⟨⟨_, _, rfl, rfl⟩, _, rfl, rfl⟩

theorem witness_WrittenWordReadsBack :
    ∃ t, filled.err = false ∧ 31 < (filled.cfg.chunk + 64) / 4 ∧ 0 < (filled.cfg.chunk + 64) / 4 ∧
      exec (.wrsb 31 5#32) filled = .next t := ⟨_, rfl, by decide, by decide, rfl⟩

theorem witness_OtherBlocksUntouched : (0 : Nat) ≠ 1 := by decide

theorem witness_AssemblerReadsBack : (Instr.pad 4294967295 18446744073709551615).wellFormed = true := by decide

theorem witness_RddigestReturnsChain :
    ({ block with pending := Controller.issueAll Pseudo.rddigest.expand } : State).cfg.legal = true ∧
    ({ block with pending := Controller.issueAll Pseudo.rddigest.expand } : State).pending =
      Controller.issueAll Pseudo.rddigest.expand := ⟨by decide, rfl⟩

/-- The host's list of actions is no part of what R129 says. -/
theorem staged_pending {s : State} {msg : List Byte} (h : Staged s msg) (l : List HostAction) :
    Staged { s with pending := l } msg := ⟨h.roff, h.chain, h.bytes⟩

/-- Nor is it part of the invariant. -/
theorem inv_pending {s : State} (h : s.Inv) (l : List HostAction) : ({ s with pending := l } : State).Inv :=
  ⟨h.legal, h.sbWf, h.sbWithin, h.srcWf, h.srcWithin, h.plen, h.status⟩

/-- No message yet: the state right after reset. -/
theorem staged_nil : Staged block [] := ⟨rfl, by decide, by decide⟩

/-- A message of five bytes: they stand in SB and ROFF is 5. -/
def fiveStaged : State :=
  { block with sb := [(0, 0x61#8), (1, 0x62#8), (2, 0x63#8), (3, 0x64#8), (4, 0x65#8)], roff := 5 }

theorem staged_five : Staged fiveStaged [0x61#8, 0x62#8, 0x63#8, 0x64#8, 0x65#8] :=
  ⟨rfl, by decide, by decide⟩

theorem inv_five : fiveStaged.Inv :=
  ⟨by decide, by decide, by decide, by decide, by decide, by decide, by decide⟩

theorem witness_UpdateStagesMessage :
    ∃ s : State, s.Inv ∧ s.err = false ∧ Staged s [] ∧ 13 + [0x61#8, 0x62#8, 0x63#8].length ≤ s.cfg.srcLen ∧
      s.pending = Controller.updateBytes s.cfg.chunk 13 s.roff [0x61#8, 0x62#8, 0x63#8] :=
  ⟨_, inv_pending inv_block (Controller.updateBytes 64 13 0 [0x61#8, 0x62#8, 0x63#8]), rfl, staged_pending staged_nil _,
    by decide, rfl⟩

/-- A base above SRC_LEN, with a command waiting behind the update. -/
theorem witness_ZeroLengthUpdateIssuesNothing :
    ∃ s : State, s.cfg.legal = true ∧ s.cfg.srcLen < 17 ∧
      s.pending = Controller.updateBytes s.cfg.chunk 17 s.roff [] ++ [.command 0x1#128] :=
  ⟨{ block with pending := [.srcWrite 17 [], .command 0x1#128] }, by decide, by decide, rfl⟩

theorem witness_FinalizeReturnsDigest :
    ∃ s : State, s.Inv ∧ s.err = false ∧ Staged s [0x61#8, 0x62#8, 0x63#8, 0x64#8, 0x65#8] ∧
      [0x61#8, 0x62#8, 0x63#8, 0x64#8, 0x65#8].length < 2 ^ 64 ∧ s.pending = Controller.finalizeRoutine s.cfg.chunk s.roff :=
  ⟨_, inv_pending inv_five (Controller.finalizeRoutine 64 5), rfl, staged_pending staged_five _, by decide, rfl⟩

theorem witness_DigestRoutineReturnsDigest :
    ∃ s : State, s.cfg.legal = true ∧ s.err = false ∧ 13 + [0x61#8, 0x62#8, 0x63#8].length ≤ s.cfg.srcLen ∧
      s.pending = Controller.digestRoutine s.cfg.chunk 13 [0x61#8, 0x62#8, 0x63#8] :=
  ⟨{ block with pending := Controller.digestRoutine 64 13 [0x61#8, 0x62#8, 0x63#8] }, by decide, rfl, by decide, rfl⟩

/-- A host that wants a standard trailer, and one that wants none and starts with ROFF at 2^61. -/
theorem witness_DigestRoutineKeepsDuties :
    (∃ s : State, s.cfg.legal = true ∧ s.err = false ∧ ((∃ u, strict.wantsTrailer u = true) → s.roff < 2 ^ 61) ∧
      13 + [0x61#8, 0x62#8, 0x63#8].length ≤ s.cfg.srcLen ∧
      s.pending = Controller.digestRoutine s.cfg.chunk 13 [0x61#8, 0x62#8, 0x63#8]) ∧
    ∃ s : State, s.cfg.legal = true ∧ s.err = false ∧ ((∃ u, careless.wantsTrailer u = true) → s.roff < 2 ^ 61) ∧
      2 ^ 61 ≤ s.roff ∧ 13 + [0x61#8, 0x62#8, 0x63#8].length ≤ s.cfg.srcLen ∧
      s.pending = Controller.digestRoutine s.cfg.chunk 13 [0x61#8, 0x62#8, 0x63#8] :=
  ⟨⟨{ block with pending := Controller.digestRoutine 64 13 [0x61#8, 0x62#8, 0x63#8] }, by decide, rfl, fun _ => by decide, by decide,
    rfl⟩,
   { block with roff := 2 ^ 61, pending := Controller.digestRoutine 64 13 [0x61#8, 0x62#8, 0x63#8] }, by decide, rfl, by simp [careless], by decide,
    by decide, rfl⟩

/-- The five bytes' record, and the block whose host is about to restore it. -/
def fiveSnapshot : Snapshot := ⟨5, 0x00000040#32, 0x00000080#32, Chain.iv, [0x61626364#32, 0x65000000#32]⟩

/-- The list of actions that restores the five bytes' record: five WRREGs, two WRSBs and ROFF. -/
def fiveRestore : List HostAction :=
  Controller.issueAll [.wrreg 0 0x67452301#32, .wrreg 1 0xEFCDAB89#32, .wrreg 2 0x98BADCFE#32, .wrreg 3 0x10325476#32,
    .wrreg 4 0xC3D2E1F0#32, .wrsb 0 0x61626364#32, .wrsb 1 0x65000000#32] ++ [.setRoff 5]

/-- getState's run makes the record, and the other block's list is the routine that restores it, so the inner premise holds too. -/
theorem witness_SnapshotRestoresStaged :
    ∃ e u t : State, e.Inv ∧ e.err = false ∧ Staged e [0x61#8, 0x62#8, 0x63#8, 0x64#8, 0x65#8] ∧ u.Inv ∧ u.err = false ∧
      u.cfg = e.cfg ∧ e.pending = Controller.getStateRoutine e.cfg.chunk e.roff ∧
      core.run e.pending.length e = .next t ∧ t.results = e.results ++ t.results.drop e.results.length ∧
      Controller.snapshotOf e.roff (t.results.drop e.results.length) = some fiveSnapshot ∧
      Controller.setStateRoutine u.cfg fiveSnapshot = .ok u.pending :=
  ⟨{ fiveStaged with pending := Controller.getStateRoutine 64 5 }, { block with pending := fiveRestore }, _,
    inv_pending inv_five _, rfl, staged_pending staged_five _, inv_pending inv_block _, rfl, rfl, rfl, rfl, rfl, rfl, rfl⟩

theorem witness_MismatchIssuesNoCommand :
    (⟨0, 128#32, 192#32, Chain.iv, []⟩ : Snapshot).chunk.toNat ≠ block.cfg.chunk ∧
    (⟨0, 64#32, 192#32, Chain.iv, []⟩ : Snapshot).padcap.toNat ≠ block.cfg.chunk + 64 := by decide

theorem witness_BatchedUpdateIssuesSameCommands : 0 < block.cfg.chunk := by decide

/-- A block of zeros, padded to one block and compressed: PAD has written every byte COMPRESS.P reads. -/
theorem witness_StaleFreeRunIgnoresDraw :
    staleFree 3 [] { block with pending := [.rst [(0, 0x77#8)], .command (encode (.pad 0 0)), .command (encode .compressP)] } = true ∧
    ∃ t, core.run 3 { block with pending := [.rst [(0, 0x77#8)], .command (encode (.pad 0 0)), .command (encode .compressP)] } =
      .next t := ⟨by decide, _, rfl⟩

/-- Two draws that differ in byte 64, with the padded block below it written, about to be compressed. -/
theorem witness_StaleFreeStepKeepsAgreement :
    ∃ t, AgreeOn [(0, 64)] { abcBlock with pending := [.command (encode (.compress 64))] }
        { abcBlock with sb := abcBlock.sb ++ [(64, 0x01#8)], pending := [.command (encode (.compress 64))] } ∧
      nextIsStaleFree [(0, 64)] { abcBlock with pending := [.command (encode (.compress 64))] } = true ∧
      step { abcBlock with pending := [.command (encode (.compress 64))] } = .next t :=
  ⟨_, ⟨rfl, fun _ k hk => by
    have hk : k < 64 := by simpa [covered] using hk
    exact (by decide : ∀ k < 64, abcBlock.sb.read k = Memory.read (abcBlock.sb ++ [(64, 0x01#8)]) k) k hk⟩,
    by decide, rfl⟩

/-! ### Whole blocks compressed: the slow tests, kept last so that no other check waits for them -/

theorem test_compress_abc : holdsOf (exec (.compress 64) abcBlock) (fun t =>
    t.h == ⟨0xa9993e36#32, 0x4706816a#32, 0xba3e2571#32, 0x7850c26c#32, 0x9cd0d89d#32⟩) = true := by decide +kernel

theorem test_compressP_empty : holdsOf (exec .compressP { block with plen := 64#32, sb := [(0, 0x80#8)] }) (fun t =>
    t.h == ⟨0xda39a3ee#32, 0x5e6b4b0d#32, 0x3255bfef#32, 0x95601890#32, 0xafd80709#32⟩) = true := by decide +kernel

/-- V1 and V2: the source's two digests, which pin `digestOf`. -/
theorem test_digest_empty :
    digestOf [] = ⟨0xda39a3ee#32, 0x5e6b4b0d#32, 0x3255bfef#32, 0x95601890#32, 0xafd80709#32⟩ := by decide +kernel

theorem test_digest_abc : digestOf [0x61#8, 0x62#8, 0x63#8] =
    ⟨0xa9993e36#32, 0x4706816a#32, 0xba3e2571#32, 0x7850c26c#32, 0x9cd0d89d#32⟩ := by decide +kernel

/-- A message of 56 bytes pads to two blocks (95_test_vectors.md 2.11). -/
theorem test_digest_spill : digestOf (List.replicate 56 0x61#8) =
    ⟨0xc2db330f#32, 0x6083854c#32, 0x99d4b5bf#32, 0xb6e8f29f#32, 0x201be699#32⟩ := by decide +kernel

end Sys2Proof.Tests
end

section
/-! PROOFS. Scope (00_scope.md): `rotl` bit by bit, every command ends, a step that issues a command runs it, and a
command leaves the host's state alone. -/

namespace Sys2Proof.Machine

/-! ### `rotl` (R7) -/

/-- The low `n` bits of `rotl x n` are the high `n` bits of `x`. -/
theorem getLsbD_rotl_low (x : Word) {n i : Nat} (hi : i < n) : (rotl x n).getLsbD i = x.getLsbD (32 - n + i) := by
  simp [rotl, hi]

/-- The other bits of `rotl x n` are those of `x`, moved up by `n`. -/
theorem getLsbD_rotl_high (x : Word) {n i : Nat} (hn : n ≤ i) (hi : i < 32) :
    (rotl x n).getLsbD i = x.getLsbD (i - n) := by
  have hout : x.getLsbD (32 - n + i) = false := BitVec.getLsbD_of_ge x _ (by omega)
  rw [rotl, BitVec.getLsbD_or, BitVec.getLsbD_shiftLeft, BitVec.getLsbD_ushiftRight, hout]
  simp [hi, Nat.not_lt.mpr hn, -BitVec.getLsbD_eq_getElem]

/-- Settles O20, by whether bit `i` comes from the high end of `x` or from below. -/
theorem rotlMovesEachBit : Obligations.RotlMovesEachBit := by
  intro x n i hn hn32 hi
  rcases Nat.lt_or_ge i n with hlow | hhigh
  · rw [getLsbD_rotl_low x hlow, Nat.mod_eq_of_lt (by omega), Nat.add_comm]
  · have hmod : (i + (32 - n)) % 32 = i - n := by omega
    rw [getLsbD_rotl_high x hhigh hi, hmod]

/-! ### Every command ends (R13) -/

/-- Settles O33: every word ends by `finish`, and `finish` always answers a next state. -/
theorem everyCommandEnds : Obligations.EveryCommandEnds := by
  intro w s
  obtain ⟨isRead, rule, hrun, -⟩ := runCommand_is_finish w
  rw [hrun]
  exact State.exists_finish s isRead (rule s)

theorem runCommand_of_decode {w : CommandWord} {i : Instr} (h : decode w = .ok i) (s : State) :
    runCommand w s = exec i s := by
  simp only [runCommand, h]

theorem exists_exec (i : Instr) (s : State) : ∃ t, exec i s = .next t := by
  obtain ⟨isRead, rule, hexec, -⟩ := exec_is_finish i
  rw [hexec]
  exact State.exists_finish s isRead (rule s)

/-! ### A command leaves the configuration and the host's state as they were (R12, R35, R41) -/

/-- Of the configuration, STATUS and the host's state, a command that ends can change STATUS alone. -/
theorem finish_sameHost {s t : State} {isRead : Bool} {o : RuleOutcome} (ho : ∀ u r, o = .ok u r → SameHost s u)
    (h : s.finish isRead o = .next t) : SameHost s (t.setStatus s.status) := by
  obtain ⟨u, r, hok, -, rfl⟩ | ⟨c, -, -, rfl⟩ | ⟨-, r, rfl⟩ := State.finish_cases h
  · exact { ho u r hok with status := rfl }
  · exact { SameHost.refl s with }
  · exact { SameHost.refl s with }

theorem exec_sameHost {i : Instr} {s t : State} (h : exec i s = .next t) : SameHost s (t.setStatus s.status) := by
  obtain ⟨isRead, rule, hexec, -, hrule⟩ := exec_is_finish i
  exact finish_sameHost (hrule s) (hexec s ▸ h)

/-! ### A step that issues a command (R33, R54) -/

theorem step_command {s : State} {w : CommandWord} {rest : List HostAction} (hl : s.cfg.legal = true)
    (hp : s.pending = .command w :: rest) : step s = State.afterCommand (runCommand w (s.issue rest)) := by
  simp only [step, (refusal_eq_none_iff s.cfg).mpr hl, hp]

/-- Settles O32: the step runs `exec` on the state with the command issued, which keeps the index, the list and the results. -/
theorem stepRunsDecodedCommand : Obligations.StepRunsDecodedCommand := by
  intro s w i rest hl hp hd
  obtain ⟨t, ht⟩ := exists_exec i (s.issue rest)
  have hhost := exec_sameHost ht
  have hresults : t.results = s.results := hhost.results
  refine ⟨t, ht, ?_, hhost.pc, hhost.pending⟩
  rw [step_command hl hp, runCommand_of_decode hd, ht, ← hresults]
  rfl

/-! ### A command does not read the host's offset, index, list or results -/

/-- The state with the host's offset, index, list and results replaced. -/
def State.setHost (roff pc : Nat) (pending : List HostAction) (results : List Word) (s : State) : State :=
  { s with roff := roff, pc := pc, pending := pending, results := results }

/-- A rule's outcome with `f` applied to the state it leaves. -/
def RuleOutcome.mapState (f : State → State) : RuleOutcome → RuleOutcome
  | .ok t r => .ok (f t) r
  | .raise cause => .raise cause

/-- The rule does not read what `f` replaces, and leaves it as it was: it and `f` may be taken in either order. -/
def RuleCommutes (f : State → State) (rule : State → RuleOutcome) : Prop :=
  ∀ s, rule (f s) = (rule s).mapState f

/-- While ERR = 1 a rule that succeeds returns its result if it is a read's, and writes nothing (R144). -/
theorem State.finish_ok_err {s : State} (h : s.err = true) (isRead : Bool) (t : State) (r : Word) :
    s.finish isRead (.ok t r) = .next (s.setResult (if isRead then r else 0x00000000#32)) := by
  simp only [State.finish, h]

section
variable (roff pc : Nat) (pending : List HostAction) (results : List Word)

theorem ruleRdreg_setHost (r : Nat) : RuleCommutes (.setHost roff pc pending results) (ruleRdreg r) := by
  intro s
  have hread : (s.setHost roff pc pending results).readRegister r = s.readRegister r := rfl
  unfold ruleRdreg
  rw [hread]
  cases s.readRegister r <;> rfl

theorem ruleWrreg_setHost (r : Nat) (v : Word) : RuleCommutes (.setHost roff pc pending results) (ruleWrreg r v) := by
  intro s
  simp only [ruleWrreg, apply_ite (RuleOutcome.mapState _)]
  rfl

theorem ruleRdsb_setHost (j : Nat) : RuleCommutes (.setHost roff pc pending results) (ruleRdsb j) := by
  intro s
  simp only [ruleRdsb, apply_ite (RuleOutcome.mapState _)]
  rfl

theorem ruleWrsb_setHost (j : Nat) (v : Word) : RuleCommutes (.setHost roff pc pending results) (ruleWrsb j v) := by
  intro s
  simp only [ruleWrsb, apply_ite (RuleOutcome.mapState _)]
  rfl

theorem rulePack_setHost (src count dst : Nat) :
    RuleCommutes (.setHost roff pc pending results) (rulePack src count dst) := by
  intro s
  simp only [rulePack, apply_ite (RuleOutcome.mapState _)]
  rfl

theorem rulePad_setHost (len msgLen : Nat) : RuleCommutes (.setHost roff pc pending results) (rulePad len msgLen) := by
  intro s
  simp only [rulePad, apply_ite (RuleOutcome.mapState _)]
  rfl

theorem ruleCompress_setHost (len : Nat) : RuleCommutes (.setHost roff pc pending results) (ruleCompress len) := by
  intro s
  simp only [ruleCompress, apply_ite (RuleOutcome.mapState _)]
  rfl

/-- A command whose rule commutes with replacing the host's state does so itself. -/
theorem finish_setHost {isRead : Bool} {rule : State → RuleOutcome} {s t : State}
    (hrule : RuleCommutes (.setHost roff pc pending results) rule) (h : s.finish isRead (rule s) = .next t) :
    (s.setHost roff pc pending results).finish isRead (rule (s.setHost roff pc pending results)) =
      .next (t.setHost roff pc pending results) := by
  have herr : (s.setHost roff pc pending results).err = s.err := rfl
  rw [hrule]
  cases he : s.err with
  | false =>
    rw [he] at herr
    cases ho : rule s with
    | ok u r =>
      rw [ho, State.finish_ok he] at h
      cases h
      exact State.finish_ok herr isRead _ r
    | raise c =>
      rw [ho, State.finish_raise he] at h
      cases h
      exact State.finish_raise herr isRead c
  | true =>
    rw [he] at herr
    cases ho : rule s with
    | ok u r =>
      rw [ho, State.finish_ok_err he] at h
      cases h
      exact State.finish_ok_err herr isRead _ r
    | raise c =>
      rw [ho, State.finish_raise_err he] at h
      cases h
      exact State.finish_raise_err herr isRead c

theorem exec_setHost {i : Instr} {s t : State} (h : exec i s = .next t) :
    exec i (s.setHost roff pc pending results) = .next (t.setHost roff pc pending results) := by
  cases i with
  | nop => exact finish_setHost roff pc pending results (rule := fun s => .ok s _) (fun _ => rfl) h
  | init => exact finish_setHost roff pc pending results (rule := fun s => .ok (s.setChain _) _) (fun _ => rfl) h
  | pack src count dst => exact finish_setHost roff pc pending results (rulePack_setHost _ _ _ _ src count dst) h
  | pad len msgLen => exact finish_setHost roff pc pending results (rulePad_setHost _ _ _ _ len msgLen) h
  | compress len => exact finish_setHost roff pc pending results (ruleCompress_setHost _ _ _ _ len) h
  | compressP =>
    exact finish_setHost roff pc pending results (rule := fun s => ruleCompress s.plenLength s)
      (fun s => ruleCompress_setHost _ _ _ _ s.plenLength s) h
  | rdreg r => exact finish_setHost roff pc pending results (ruleRdreg_setHost _ _ _ _ r) h
  | wrreg r v => exact finish_setHost roff pc pending results (ruleWrreg_setHost _ _ _ _ r v) h
  | rdsb j => exact finish_setHost roff pc pending results (ruleRdsb_setHost _ _ _ _ j) h
  | wrsb j v => exact finish_setHost roff pc pending results (ruleWrsb_setHost _ _ _ _ j v) h

end

/-- Settles O40: `exec_sameHost` says what `exec` leaves, and `exec_setHost` what it does not read. -/
theorem commandsLeaveHostStateAlone : Obligations.CommandsLeaveHostStateAlone := by
  intro i s t roff pc pending results h
  obtain ⟨-, hcfg, hsrc, hroff, hpending, hpc, hresults⟩ := exec_sameHost h
  exact ⟨hroff, hsrc, hcfg, hpending, hpc, hresults, exec_setHost roff pc pending results h⟩

end Sys2Proof.Machine
end

section
/-! PROOFS. The state (10_state.md): every step keeps the invariant, STATUS changes only by the first fault and by RST, and
which commands change H, SB and PLEN. -/

namespace Sys2Proof.Machine

/-! ### What a command's rule writes (R19, R23, R25) -/

/-- The rule of the command, run on `s`, may succeed with the effects `u`: one case for each write of H, SB or PLEN, with the
checks it has passed. `nothing` is for the commands that read, for NOP and for a PACK of no byte. -/
inductive RuleWrites (s : State) : Instr → State → Prop
  | nothing (i : Instr) : RuleWrites s i s
  | init : RuleWrites s .init (s.setChain Chain.iv)
  | wrreg (r : Nat) (v : Word) (hr : r ≤ 4) : RuleWrites s (.wrreg r v) (s.setChain (s.h.set r v))
  | compress (len : Nat) (h64 : len % 64 = 0) (hlen : len ≤ s.cfg.padcap) :
      RuleWrites s (.compress len) (s.setChain (compressBlocks s.sb (len / 64) s.h))
  | compressP (h64 : s.plenLength % 64 = 0) (hlen : s.plenLength ≤ s.cfg.padcap) :
      RuleWrites s .compressP (s.setChain (compressBlocks s.sb (s.plenLength / 64) s.h))
  | pack (src count dst : Nat) (hsrc : src + count ≤ s.cfg.srcLen) (hdst : dst + count ≤ s.cfg.padcap) :
      RuleWrites s (.pack src count dst) (s.setStaging (packed src count dst s))
  | pad (len msgLen : Nat) (hpad : paddedLength len ≤ s.cfg.padcap) :
      RuleWrites s (.pad len msgLen)
        ((s.setStaging (padded len msgLen s.sb)).setPlen (BitVec.ofNat 32 (paddedLength len)))
  | wrsb (j : Nat) (v : Word) (hj : j < s.cfg.padcap / 4) :
      RuleWrites s (.wrsb j v) (s.setStaging (s.sb.writeWord (wordAddr j) v))

section
variable {s u : State} {r : Word}

theorem rulePack_writes {src count dst : Nat} (h : rulePack src count dst s = .ok u r) :
    RuleWrites s (.pack src count dst) u := by
  simp only [rulePack] at h
  split at h
  · cases h; exact .nothing _
  split at h
  · cases h
  split at h
  · cases h
  cases h; exact .pack src count dst (by omega) (by omega)

theorem rulePad_writes {len msgLen : Nat} (h : rulePad len msgLen s = .ok u r) : RuleWrites s (.pad len msgLen) u := by
  simp only [rulePad] at h
  split at h
  · cases h
  cases h; exact .pad len msgLen (by omega)

theorem ruleCompress_ok {len : Nat} (h : ruleCompress len s = .ok u r) :
    len % 64 = 0 ∧ len ≤ s.cfg.padcap ∧ u = s.setChain (compressBlocks s.sb (len / 64) s.h) := by
  simp only [ruleCompress] at h
  split at h
  · cases h
  split at h
  · cases h
  cases h; exact ⟨by omega, by omega, rfl⟩

theorem ruleCompress_writes {len : Nat} (h : ruleCompress len s = .ok u r) : RuleWrites s (.compress len) u := by
  obtain ⟨h64, hlen, rfl⟩ := ruleCompress_ok h
  exact .compress len h64 hlen

theorem ruleCompressP_writes (h : ruleCompress s.plenLength s = .ok u r) : RuleWrites s .compressP u := by
  obtain ⟨h64, hlen, rfl⟩ := ruleCompress_ok h
  exact .compressP h64 hlen

theorem ruleRdreg_writes {n : Nat} (h : ruleRdreg n s = .ok u r) : RuleWrites s (.rdreg n) u := by
  simp only [ruleRdreg] at h
  split at h
  · cases h; exact .nothing _
  · cases h

theorem ruleWrreg_writes {n : Nat} {v : Word} (h : ruleWrreg n v s = .ok u r) : RuleWrites s (.wrreg n v) u := by
  simp only [ruleWrreg] at h
  split at h
  · cases h
  split at h
  · cases h
  cases h; exact .wrreg n v (by omega)

theorem ruleRdsb_writes {j : Nat} (h : ruleRdsb j s = .ok u r) : RuleWrites s (.rdsb j) u := by
  simp only [ruleRdsb] at h
  split at h
  · cases h; exact .nothing _
  · cases h

theorem ruleWrsb_writes {j : Nat} {v : Word} (h : ruleWrsb j v s = .ok u r) : RuleWrites s (.wrsb j v) u := by
  simp only [ruleWrsb] at h
  split at h
  case isTrue hj => cases h; exact .wrsb j v ((wordInSb_iff s.cfg j).mp hj)
  case isFalse => cases h

end

/-- Every command ends by `finish` of an outcome whose effects, if it has any, are those of `RuleWrites`. -/
theorem exec_is_finish_writes (i : Instr) (s : State) :
    ∃ (isRead : Bool) (o : RuleOutcome), exec i s = s.finish isRead o ∧ ∀ u r, o = .ok u r → RuleWrites s i u := by
  cases i with
  | nop => exact ⟨false, _, rfl, fun u r h => by cases h; exact .nothing _⟩
  | init => exact ⟨false, _, rfl, fun u r h => by cases h; exact .init⟩
  | pack src count dst => exact ⟨false, _, rfl, fun u r => rulePack_writes⟩
  | pad len msgLen => exact ⟨false, _, rfl, fun u r => rulePad_writes⟩
  | compress len => exact ⟨false, _, rfl, fun u r => ruleCompress_writes⟩
  | compressP => exact ⟨false, _, rfl, fun u r => ruleCompressP_writes⟩
  | rdreg n => exact ⟨true, _, rfl, fun u r => ruleRdreg_writes⟩
  | wrreg n v => exact ⟨false, _, rfl, fun u r => ruleWrreg_writes⟩
  | rdsb j => exact ⟨true, _, rfl, fun u r => ruleRdsb_writes⟩
  | wrsb j v => exact ⟨false, _, rfl, fun u r => ruleWrsb_writes⟩

/-! ### The invariant (R4, R22, R25, R26) -/

/-- PADCAP of a legal configuration fits PLEN's 32 bits (R1, R2). -/
theorem padcap_lt_of_legal {cfg : Config} (h : cfg.legal = true) : cfg.padcap < 2 ^ 32 := by
  simp only [Config.legal, Config.legalChunk, Bool.and_eq_true, decide_eq_true_eq] at h
  simp only [Config.padcap]
  omega

/-- PLEN holds a padded length within PADCAP without loss (R25, R86). -/
theorem toNat_paddedLength {cfg : Config} {len : Nat} (hl : cfg.legal = true) (hp : paddedLength len ≤ cfg.padcap) :
    (BitVec.ofNat 32 (paddedLength len)).toNat = paddedLength len := by
  rw [BitVec.toNat_ofNat, Nat.mod_eq_of_lt (Nat.lt_of_le_of_lt hp (padcap_lt_of_legal hl))]

theorem wf_packed {s : State} (h : s.sb.wf) (src count dst : Nat) : (packed src count dst s).wf :=
  Memory.wf_writeBytes h _ _

theorem within_packed {s : State} {size dst count : Nat} (h : s.sb.within size) (hd : dst + count ≤ size) (src : Nat) :
    (packed src count dst s).within size :=
  Memory.within_writeBytes h (by rwa [Memory.length_readBytes])

namespace State.Inv

variable {s : State} (hs : s.Inv)
include hs

theorem setChain (c : Chain) : (s.setChain c).Inv := { hs with }

theorem setStaging {m : Memory} (hwf : m.wf) (hm : m.within s.cfg.padcap) : (s.setStaging m).Inv :=
  { hs with sbWf := hwf, sbWithin := hm }

theorem setPlen {w : Word} (h64 : w.toNat % 64 = 0) (hle : w.toNat ≤ s.cfg.padcap) : (s.setPlen w).Inv :=
  { hs with plen := ⟨h64, hle⟩ }

theorem setResult (w : Word) : (s.setResult w).Inv := { hs with }

theorem setRoff (n : Nat) : (s.setRoff n).Inv := { hs with }

theorem setPending (l : List HostAction) : (s.setPending l).Inv := { hs with }

theorem issue (rest : List HostAction) : (s.issue rest).Inv := { hs with }

theorem receive : s.receive.Inv := { hs with }

/-- A host write inside SRC (R41). -/
theorem writeSource {base : Nat} {bytes : List Byte} (h : base + bytes.length ≤ s.cfg.srcLen) :
    (s.setSource (s.src.writeBytes base bytes)).Inv :=
  { hs with
    srcWf := Memory.wf_writeBytes hs.srcWf base bytes
    srcWithin := Memory.within_writeBytes hs.srcWithin h }

/-- RST, whatever its draw (R158). -/
theorem assertReset (d : Memory) : (s.assertReset d).Inv :=
  { hs with
    sbWf := Memory.wf_confine d s.cfg.padcap
    sbWithin := Memory.within_confine d s.cfg.padcap
    plen := ⟨rfl, Nat.zero_le _⟩
    status := rfl }

theorem ruleWrites {i : Instr} {u : State} (h : RuleWrites s i u) : u.Inv := by
  cases h with
  | nothing => exact hs
  | init => exact hs.setChain _
  | wrreg => exact hs.setChain _
  | compress => exact hs.setChain _
  | compressP => exact hs.setChain _
  | pack src count dst _ hdst => exact hs.setStaging (wf_packed hs.sbWf ..) (within_packed hs.sbWithin hdst src)
  | pad len msgLen hpad =>
    have hplen := toNat_paddedLength hs.legal hpad
    have hstaged := hs.setStaging (wf_padded hs.sbWf len msgLen) (within_padded hs.sbWithin hpad msgLen)
    exact hstaged.setPlen (by rw [hplen]; exact (paddedLength_bounds len).1) (by rwa [hplen])
  | wrsb j v hj =>
    have hword : wordAddr j + 4 ≤ s.cfg.padcap := by
      simp only [wordAddr]
      omega
    exact hs.setStaging (Memory.wf_writeWord hs.sbWf _ v) (Memory.within_writeWord hs.sbWithin hword v)

theorem finish {t : State} {isRead : Bool} {o : RuleOutcome} (ho : ∀ u r, o = .ok u r → u.Inv)
    (h : s.finish isRead o = .next t) : t.Inv := by
  obtain ⟨u, r, hok, -, rfl⟩ | ⟨c, -, -, rfl⟩ | ⟨-, r, rfl⟩ := State.finish_cases h
  · exact (ho u r hok).setResult r
  · exact { hs with status := legalStatus_faultStatus c }
  · exact hs.setResult r

theorem runCommand {t : State} {w : CommandWord} (h : runCommand w s = .next t) : t.Inv := by
  cases hd : decode w with
  | ok i =>
    obtain ⟨isRead, o, hexec, hw⟩ := exec_is_finish_writes i s
    rw [runCommand_of_decode hd, hexec] at h
    exact hs.finish (fun u r ho => hs.ruleWrites (hw u r ho)) h
  | error c =>
    simp only [Machine.runCommand, hd] at h
    exact hs.finish (fun _ _ ho => by cases ho) h

end State.Inv

/-- Settles O34, by the host's action: a command keeps the invariant by what its rule may write, and RST and the two host
updates keep it by the range of what they write. -/
theorem stepKeepsInvariant : Obligations.StepKeepsInvariant := by
  intro s t hs h
  obtain ⟨-, hcase⟩ := step_cases h
  rcases hcase with ⟨-, rfl⟩ | ⟨w, rest, u, -, hu, rfl⟩ | ⟨d, rest, -, rfl⟩ |
    ⟨base, bytes, rest, -, hsrc⟩ | ⟨n, rest, -, rfl⟩
  · exact hs
  · exact ((hs.issue rest).runCommand hu).receive
  · exact (hs.setPending rest).assertReset d
  · obtain ⟨-, rfl⟩ | ⟨-, hfits, rfl⟩ := hsrc
    · exact hs.setPending rest
    · exact (hs.setPending rest).writeSource hfits
  · exact (hs.setPending rest).setRoff n

/-! ### STATUS (R26, R150) -/

/-- A command leaves STATUS as it was, or is the first fault, which changes nothing but STATUS and the result (R141). -/
theorem runCommand_status {w : CommandWord} {s t : State} (h : runCommand w s = .next t) :
    t.status = s.status ∨
      (s.err = false ∧ ∃ c, t = { s with status := faultStatus c, result := 0x00000000#32 }) := by
  obtain ⟨isRead, rule, hrun, hrule⟩ := runCommand_is_finish w
  obtain ⟨u, r, hok, -, rfl⟩ | ⟨c, -, he, rfl⟩ | ⟨-, r, rfl⟩ := State.finish_cases (hrun s ▸ h)
  · exact .inl (hrule s u r hok).status
  · exact .inr ⟨he, c, rfl⟩
  · exact .inl rfl

/-- Settles O27, by the host's action: only a command and RST touch STATUS. -/
theorem onlyResetClearsStatus : Obligations.OnlyResetClearsStatus := by
  intro s t h
  obtain ⟨-, hcase⟩ := step_cases h
  rcases hcase with ⟨-, rfl⟩ | ⟨w, rest, u, hp, hu, rfl⟩ | ⟨d, rest, hp, rfl⟩ |
    ⟨base, bytes, rest, -, hsrc⟩ | ⟨n, rest, -, rfl⟩
  · exact .inl rfl
  · obtain hsame | ⟨herr, c, rfl⟩ := runCommand_status hu
    · exact .inl hsame
    · exact .inr (.inr ⟨herr, faultStatus_err c, w, rest, hp⟩)
  · exact .inr (.inl ⟨d, rest, hp, rfl⟩)
  · obtain ⟨-, rfl⟩ | ⟨-, -, rfl⟩ := hsrc <;> exact .inl rfl
  · exact .inl rfl

/-! ### H, SB and PLEN (R19, R23, R25) -/

/-- H, SB and PLEN after a command are those its rule may write; a command that faults or is dropped writes nothing. -/
theorem exec_writes {i : Instr} {s t : State} (h : exec i s = .next t) :
    ∃ u, RuleWrites s i u ∧ t.h = u.h ∧ t.sb = u.sb ∧ t.plen = u.plen := by
  obtain ⟨isRead, o, hexec, hw⟩ := exec_is_finish_writes i s
  obtain ⟨u, r, hok, -, rfl⟩ | ⟨c, -, -, rfl⟩ | ⟨-, r, rfl⟩ := State.finish_cases (hexec ▸ h)
  · exact ⟨u, hw u r hok, rfl, rfl, rfl⟩
  · exact ⟨s, .nothing i, rfl, rfl, rfl⟩
  · exact ⟨s, .nothing i, rfl, rfl, rfl⟩

/-- Settles O39, by the cases of `RuleWrites`: in each, the registers that its update does not name are as they were. -/
theorem onlyItsWritersChangeState : Obligations.OnlyItsWritersChangeState := by
  intro i s t h
  obtain ⟨u, hw, hh, hsb, hplen⟩ := exec_writes h
  rw [hh, hsb, hplen]
  cases hw with
  | nothing => exact ⟨absurd rfl, absurd rfl, absurd rfl⟩
  | init => exact ⟨fun _ => .inl rfl, absurd rfl, absurd rfl⟩
  | compressP => exact ⟨fun _ => .inr (.inl rfl), absurd rfl, absurd rfl⟩
  | compress len => exact ⟨fun _ => .inr (.inr (.inl ⟨len, rfl⟩)), absurd rfl, absurd rfl⟩
  | wrreg r v hr => exact ⟨fun _ => .inr (.inr (.inr ⟨r, v, hr, rfl⟩)), absurd rfl, absurd rfl⟩
  | pack src count dst => exact ⟨absurd rfl, fun _ => .inl ⟨src, count, dst, rfl⟩, absurd rfl⟩
  | pad len msgLen => exact ⟨absurd rfl, fun _ => .inr (.inl ⟨len, msgLen, rfl⟩), fun _ => ⟨len, msgLen, rfl⟩⟩
  | wrsb j v => exact ⟨absurd rfl, fun _ => .inr (.inr ⟨j, v, rfl⟩), absurd rfl⟩

end Sys2Proof.Machine
end

section
/-! PROOFS. Memory (20_memory.md): PACK alone reads SRC, every command but COMPRESS is idempotent, a word written to SB
reads back, and a step of one block leaves the others alone. -/

namespace Sys2Proof.Machine

/-! ### The rule of each command -/

/-- The rule of a command, its effects not yet subject to ERR (R144). -/
def ruleOf : Instr → State → RuleOutcome
  | .nop, s => .ok s 0x00000000#32
  | .init, s => .ok (s.setChain Chain.iv) 0x00000000#32
  | .pack src count dst, s => rulePack src count dst s
  | .pad len msgLen, s => rulePad len msgLen s
  | .compress len, s => ruleCompress len s
  | .compressP, s => ruleCompress s.plenLength s
  | .rdreg r, s => ruleRdreg r s
  | .wrreg r v, s => ruleWrreg r v s
  | .rdsb j, s => ruleRdsb j s
  | .wrsb j v, s => ruleWrsb j v s

/-- The command returns its result while ERR = 1 too (R114, R120). -/
def isReadCommand : Instr → Bool
  | .rdreg _ => true
  | .rdsb _ => true
  | _ => false

theorem exec_eq_finish (i : Instr) (s : State) : exec i s = s.finish (isReadCommand i) (ruleOf i s) := by
  cases i <;> rfl

/-! ### What a command does not read (R41) -/

/-- The state with SRC and the last result word replaced. -/
def State.setUnread (src : Memory) (result : Word) (s : State) : State := (s.setSource src).setResult result

/-- PACK's copy depends on its own source bytes only (R41). -/
theorem packed_setUnread {src count : Nat} {s : State} {m : Memory}
    (h : ∀ k < count, m.read (src + k) = s.src.read (src + k)) (dst : Nat) (w : Word) :
    packed src count dst (s.setUnread m w) = packed src count dst s :=
  congrArg (s.sb.writeBytes dst) (Memory.readBytes_congr h)

/-- A rule reads neither the last result word nor SRC, but for PACK's own source bytes, and writes neither. -/
theorem ruleOf_setUnread {i : Instr} {s : State} {m : Memory}
    (h : ∀ src count dst, i = .pack src count dst → ∀ k < count, m.read (src + k) = s.src.read (src + k)) (w : Word) :
    ruleOf i (s.setUnread m w) = (ruleOf i s).mapState (.setUnread m w) := by
  cases i with
  | nop => rfl
  | init => rfl
  | pack src count dst =>
    simp only [ruleOf, rulePack, apply_ite (RuleOutcome.mapState _), packed_setUnread (h src count dst rfl)]
    rfl
  | pad len msgLen =>
    simp only [ruleOf, rulePad, apply_ite (RuleOutcome.mapState _)]
    rfl
  | compress len =>
    simp only [ruleOf, ruleCompress, apply_ite (RuleOutcome.mapState _)]
    rfl
  | compressP =>
    simp only [ruleOf, ruleCompress, apply_ite (RuleOutcome.mapState _)]
    rfl
  | rdreg r =>
    have hread : (s.setUnread m w).readRegister r = s.readRegister r := rfl
    simp only [ruleOf, ruleRdreg, hread]
    cases s.readRegister r <;> rfl
  | wrreg r v =>
    simp only [ruleOf, ruleWrreg, apply_ite (RuleOutcome.mapState _)]
    rfl
  | rdsb j =>
    simp only [ruleOf, ruleRdsb, apply_ite (RuleOutcome.mapState _)]
    rfl
  | wrsb j v =>
    simp only [ruleOf, ruleWrsb, apply_ite (RuleOutcome.mapState _)]
    rfl

/-- However a command ends, it writes the result word and leaves SRC as it finds it. -/
theorem finish_setUnread {s t : State} {isRead : Bool} {o : RuleOutcome} (m : Memory) (w : Word)
    (h : s.finish isRead o = .next t) :
    (s.setUnread m w).finish isRead (o.mapState (.setUnread m w)) = .next (t.setSource m) := by
  have herr : (s.setUnread m w).err = s.err := rfl
  cases he : s.err <;> rw [he] at herr <;> cases o
  case false.ok u r => rw [State.finish_ok he] at h; cases h; exact State.finish_ok herr isRead _ r
  case false.raise c => rw [State.finish_raise he] at h; cases h; exact State.finish_raise herr isRead c
  case true.ok u r => rw [State.finish_ok_err he] at h; cases h; exact State.finish_ok_err herr isRead _ r
  case true.raise c => rw [State.finish_raise_err he] at h; cases h; exact State.finish_raise_err herr isRead c

theorem exec_setUnread {i : Instr} {s t : State} {m : Memory}
    (hm : ∀ src count dst, i = .pack src count dst → ∀ k < count, m.read (src + k) = s.src.read (src + k)) (w : Word)
    (h : exec i s = .next t) : exec i (s.setUnread m w) = .next (t.setSource m) := by
  rw [exec_eq_finish] at h ⊢
  rw [ruleOf_setUnread hm]
  exact finish_setUnread m w h

/-- Settles O41: the other SRC is one of the two things `exec_setUnread` replaces, the last result word being kept. -/
theorem onlyPackReadsItsSourceBytes : Obligations.OnlyPackReadsItsSourceBytes := by
  intro i s t src' h hsrc
  exact exec_setUnread hsrc s.result h

/-- The last result word has no influence on a command. -/
theorem exec_setResult {i : Instr} {s t : State} (w : Word) (h : exec i s = .next t) :
    exec i (s.setResult w) = .next t := by
  have hsrc : t.src = s.src := (exec_sameHost h).src
  have hkept : t.setSource s.src = t := by rw [← hsrc]; rfl
  have hset := exec_setUnread (m := s.src) (fun _ _ _ _ _ _ => rfl) w h
  rwa [hkept] at hset

/-! ### A write repeated (R9) -/

namespace Memory
variable (m : Memory)

theorem filter_filter_of_imp {p q : Nat → Bool} (h : ∀ a, q a = true → p a = true) :
    (m.filter fun c => p c.1).filter (fun c => q c.1) = m.filter fun c => q c.1 := by
  rw [List.filter_filter]
  exact List.filter_congr fun c _ => by simpa using h c.1

theorem filter_filter_of_disjoint {p q : Nat → Bool} (h : ∀ a, p a = true → ¬ q a = true) :
    (m.filter fun c => p c.1).filter (fun c => q c.1) = [] :=
  List.filter_eq_nil_iff.mpr fun c hc => h c.1 (List.mem_filter.mp hc).2

theorem filter_cellsFrom_of_outside {q : Nat → Bool} {base : Nat} {bytes : List Byte}
    (h : ∀ a, base ≤ a → a < base + bytes.length → ¬ q a = true) :
    (cellsFrom base bytes).filter (fun c => q c.1) = [] :=
  List.filter_eq_nil_iff.mpr fun _ hc => h _ (cellsFrom_bounds hc).1 (cellsFrom_bounds hc).2.1

/-- A write leaves the cells below it as they were. -/
theorem filter_lt_writeBytes {k base : Nat} {bytes : List Byte} (h : k ≤ base) :
    (writeBytes m base bytes).filter (fun c => decide (c.1 < k)) = m.filter (fun c => decide (c.1 < k)) := by
  rw [writeBytes, List.filter_append, List.filter_append,
    filter_filter_of_imp m (p := fun a => decide (a < base)) (q := fun a => decide (a < k)) (by simp; omega),
    filter_cellsFrom_of_outside (q := fun a => decide (a < k)) (by simp; omega),
    filter_filter_of_disjoint m (p := fun a => decide (base + bytes.length ≤ a)) (q := fun a => decide (a < k))
      (by simp; omega), List.append_nil, List.append_nil]

/-- A write leaves the cells above it as they were. -/
theorem filter_ge_writeBytes {k base : Nat} {bytes : List Byte} (h : base + bytes.length ≤ k) :
    (writeBytes m base bytes).filter (fun c => decide (k ≤ c.1)) = m.filter (fun c => decide (k ≤ c.1)) := by
  rw [writeBytes, List.filter_append, List.filter_append,
    filter_filter_of_disjoint m (p := fun a => decide (a < base)) (q := fun a => decide (k ≤ a)) (by simp; omega),
    filter_cellsFrom_of_outside (q := fun a => decide (k ≤ a)) (by simp; omega),
    filter_filter_of_imp m (p := fun a => decide (base + bytes.length ≤ a)) (q := fun a => decide (k ≤ a))
      (by simp; omega), List.append_nil, List.nil_append]

/-- A write hides an earlier one inside its range. -/
theorem writeBytes_of_within {k base : Nat} {bytes hidden : List Byte} (hk : base ≤ k)
    (hle : k + hidden.length ≤ base + bytes.length) :
    writeBytes (writeBytes m k hidden) base bytes = writeBytes m base bytes := by
  rw [writeBytes, filter_lt_writeBytes m hk, filter_ge_writeBytes m hle, writeBytes]

theorem writeWord_writeWord (k : Nat) (v : Word) : writeWord (writeWord m k v) k v = writeWord m k v :=
  writeBytes_of_within m (le_refl _) (le_refl _)

end Memory

theorem packed_packed (src count dst : Nat) (s : State) :
    packed src count dst (s.setStaging (packed src count dst s)) = packed src count dst s :=
  Memory.writeBytes_of_within s.sb (le_refl _) (le_refl _)

/-- PAD's zero-fill covers all that an earlier PAD of the same length wrote (R83). -/
theorem padded_padded (len msgLen : Nat) (m : Memory) : padded len msgLen (padded len msgLen m) = padded len msgLen m := by
  have hb := paddedLength_bounds len
  have hzeros : (List.replicate (paddedLength len - len) 0x00#8).length = paddedLength len - len :=
    List.length_replicate
  have hfill : (padded len msgLen m).writeBytes len (List.replicate (paddedLength len - len) 0x00#8) =
      m.writeBytes len (List.replicate (paddedLength len - len) 0x00#8) := by
    rw [padded, Memory.writeDouble, Memory.writeByte,
      Memory.writeBytes_of_within _ (by omega) (by rw [hzeros, Memory.length_be64]; omega),
      Memory.writeBytes_of_within _ (le_refl _) (by rw [hzeros, List.length_singleton]; omega),
      Memory.writeBytes_of_within _ (le_refl _) (le_refl _)]
  rw [padded, hfill, padded]

theorem Chain.set_set (c : Chain) (r : Nat) (v : Word) : (c.set r v).set r v = c.set r v := by
  rcases r with _ | _ | _ | _ | _ | r <;> rfl

/-! ### A command repeated (R48) -/

/-- A rule other than COMPRESS's, run again on what it left, succeeds again and leaves the same. -/
theorem ruleOf_idempotent {i : Instr} {s u : State} {r : Word} (hc : ∀ len, i ≠ .compress len) (hp : i ≠ .compressP)
    (h : ruleOf i s = .ok u r) : ruleOf i u = .ok u r := by
  cases i with
  | nop => cases h; rfl
  | init => cases h; rfl
  | pack src count dst =>
    simp only [ruleOf, rulePack] at h ⊢
    split_ifs at h with h0 hsrc hdst <;> cases h
    · rw [if_pos h0]
    · rw [if_neg h0, State.setStaging_cfg, if_neg hsrc, if_neg hdst, packed_packed]
      rfl
  | pad len msgLen =>
    simp only [ruleOf, rulePad] at h ⊢
    split_ifs at h with hpad
    cases h
    rw [State.setPlen_cfg, State.setStaging_cfg, if_neg hpad, State.setPlen_sb, State.setStaging_sb, padded_padded]
    rfl
  | compress len => exact absurd rfl (hc len)
  | compressP => exact absurd rfl hp
  | rdreg n => cases ruleRdreg_writes h; exact h
  | wrreg n v =>
    simp only [ruleOf, ruleWrreg] at h ⊢
    split_ifs at h with h8 h4
    cases h
    rw [if_neg h8, if_neg h4, State.setChain_h, Chain.set_set]
    rfl
  | rdsb j => cases ruleRdsb_writes h; exact h
  | wrsb j v =>
    simp only [ruleOf, ruleWrsb] at h ⊢
    split_ifs at h with hj
    cases h
    rw [State.setStaging_cfg, if_pos hj, State.setStaging_sb, Memory.writeWord_writeWord]
    rfl

theorem readRegister_eq_none_iff (s : State) (r : Nat) : s.readRegister r = none ↔ 8 < r := by
  rcases r with _ | _ | _ | _ | _ | _ | _ | _ | _ | r <;> simp [State.readRegister, Chain.get]

/-- Whether RDREG and RDSB fault depends on the configuration alone (R113, R119). -/
theorem ruleOf_read_raise {i : Instr} {s t : State} {c : Cause} (hi : isReadCommand i = true) (hcfg : t.cfg = s.cfg)
    (h : ruleOf i s = .raise c) : ruleOf i t = .raise c := by
  cases i with
  | rdreg n =>
    simp only [ruleOf, ruleRdreg] at h ⊢
    cases hs : s.readRegister n with
    | some v => rw [hs] at h; cases h
    | none =>
      rw [(readRegister_eq_none_iff t n).mpr ((readRegister_eq_none_iff s n).mp hs)]
      rwa [hs] at h
  | rdsb j =>
    simp only [ruleOf, ruleRdsb] at h ⊢
    rw [hcfg]
    split_ifs at h ⊢ with hj
    exact h
  | _ => cases hi

theorem ruleOf_writes {i : Instr} {s u : State} {r : Word} (h : ruleOf i s = .ok u r) : RuleWrites s i u := by
  cases i with
  | nop => cases h; exact .nothing _
  | init => cases h; exact .init
  | pack => exact rulePack_writes h
  | pad => exact rulePad_writes h
  | compress => exact ruleCompress_writes h
  | compressP => exact ruleCompressP_writes h
  | rdreg => exact ruleRdreg_writes h
  | wrreg => exact ruleWrreg_writes h
  | rdsb => exact ruleRdsb_writes h
  | wrsb => exact ruleWrsb_writes h

theorem RuleWrites.err {i : Instr} {s u : State} (h : RuleWrites s i u) : u.err = s.err := by
  cases h <;> rfl

/-- A command that has just faulted changes nothing when repeated: its second fault is hidden by ERR = 1 (R144). -/
theorem exec_after_fault {i : Instr} {s t : State} {c : Cause} (h : ruleOf i s = .raise c) (he : t.err = true)
    (hresult : t.result = 0x00000000#32) (hcfg : t.cfg = s.cfg) : exec i t = .next t := by
  have hset : t.setResult 0x00000000#32 = t := by rw [← hresult]; rfl
  rw [exec_eq_finish]
  cases hi : isReadCommand i with
  | false => rw [State.finish_dropped he, hset]
  | true => rw [ruleOf_read_raise hi hcfg h, State.finish_raise_err he, hset]

/-- Every command but COMPRESS and COMPRESS.P leaves, issued twice, the state of once (R48). -/
theorem exec_idempotent {i : Instr} {s t : State} (hc : ∀ len, i ≠ .compress len) (hp : i ≠ .compressP)
    (h : exec i s = .next t) : exec i t = .next t := by
  obtain ⟨u, r, hok, he, rfl⟩ | ⟨c, hraise, -, rfl⟩ | ⟨-, r, rfl⟩ := State.finish_cases (exec_eq_finish i s ▸ h)
  · have hu : exec i u = .next (u.setResult r) := by
      rw [exec_eq_finish, ruleOf_idempotent hc hp hok, State.finish_ok ((ruleOf_writes hok).err.trans he)]
    exact exec_setResult r hu
  · exact exec_after_fault hraise (faultStatus_err c) rfl rfl
  · exact exec_setResult r h

/-- NOP, RDREG and RDSB have no write to make (R48). -/
theorem RuleWrites.eq_of_reads {i : Instr} {s u : State} (hi : i = .nop ∨ (∃ r, i = .rdreg r) ∨ ∃ j, i = .rdsb j)
    (h : RuleWrites s i u) : u = s := by
  rcases hi with rfl | ⟨r, rfl⟩ | ⟨j, rfl⟩ <;> cases h <;> rfl

/-- Without a fault NOP, RDREG and RDSB change the result word only (R48). -/
theorem exec_reads {i : Instr} {s t : State} (hi : i = .nop ∨ (∃ r, i = .rdreg r) ∨ ∃ j, i = .rdsb j)
    (h : exec i s = .next t) (herr : t.err = s.err) : t = s.setResult t.result := by
  obtain ⟨u, r, hok, -, rfl⟩ | ⟨c, -, he, rfl⟩ | ⟨-, r, rfl⟩ := State.finish_cases (exec_eq_finish i s ▸ h)
  · rw [(ruleOf_writes hok).eq_of_reads hi, State.setResult_result]
  · have hclear : (faultStatus c).getLsbD 0 = false := herr.trans he
    rw [faultStatus_err] at hclear
    cases hclear
  · rfl

theorem exec_compress {s : State} {len : Nat} (he : s.err = false) (h64 : len % 64 = 0) (hlen : len ≤ s.cfg.padcap) :
    exec (.compress len) s = .next ((s.setChain (compressBlocks s.sb (len / 64) s.h)).setResult 0x00000000#32) := by
  rw [exec_eq_finish, ruleOf, ruleCompress, if_neg (not_not.mpr h64), if_neg (Nat.not_lt.mpr hlen),
    State.finish_ok he]

/-- A block of zero bytes, compressed once and twice from the IV. -/
theorem compressBlocks_zeros_twice_ne :
    compressBlocks [] 1 (compressBlocks [] 1 Chain.iv) ≠ compressBlocks [] 1 Chain.iv := by decide +kernel

/-- Settles O42, each clause by its lemma; the state on which COMPRESS 64 is not idempotent is `State.reset`. -/
theorem repeatedCommandsAgree : Obligations.RepeatedCommandsAgree := by
  refine ⟨fun i s t u hc hp ht hu => ?_, fun i s t => exec_reads, ?_⟩
  · rw [exec_idempotent hc hp ht] at hu
    cases hu
    rfl
  · exact ⟨State.reset, _, _, exec_compress rfl rfl (by decide), exec_compress rfl rfl (by decide),
      compressBlocks_zeros_twice_ne⟩

/-! ### SB by words (R37 to R39, R122) -/

theorem exec_wrsb {s : State} {j : Nat} (v : Word) (he : s.err = false) (hj : j < (s.cfg.chunk + 64) / 4) :
    exec (.wrsb j v) s = .next ((s.setStaging (s.sb.writeWord (wordAddr j) v)).setResult 0x00000000#32) := by
  rw [exec_eq_finish, ruleOf, ruleWrsb, if_pos ((wordInSb_iff s.cfg j).mpr hj), State.finish_ok he]

theorem exec_rdsb {s : State} {j : Nat} (hj : j < (s.cfg.chunk + 64) / 4) :
    exec (.rdsb j) s = .next (s.setResult (s.sbWord j)) := by
  rw [exec_eq_finish, ruleOf, ruleRdsb, if_pos ((wordInSb_iff s.cfg j).mpr hj)]
  exact State.finish_read s _ rfl

/-- Words of SB share no byte: a write of one leaves the others as they were (R38). -/
theorem readWord_writeWord_wordAddr (m : Memory) (j k : Nat) (v : Word) :
    (m.writeWord (wordAddr j) v).readWord (wordAddr k) = if k = j then v else m.readWord (wordAddr k) := by
  split
  case isTrue hkj => rw [hkj, Memory.readWord_writeWord]
  case isFalse hkj =>
    refine Memory.readWord_congr fun i hi => Memory.read_writeWord_outside m v ?_
    simp only [wordAddr]
    omega

/-- Settles O43: WRSB writes word `j` of SB, and RDSB reads word `k` of what it left. -/
theorem writtenWordReadsBack : Obligations.WrittenWordReadsBack := by
  intro s t j k v he hj hk h
  rw [exec_wrsb v he hj] at h
  cases h
  rw [exec_rdsb]
  · simp only [State.sbWord, State.setResult_sb, State.setStaging_sb, readWord_writeWord_wordAddr]
    rfl
  · exact hk

/-! ### Several blocks (R51) -/

/-- A step of block `k` replaces that block, or nothing. -/
theorem stepBlock_cases (k : Nat) (blocks : List State) :
    stepBlock k blocks = blocks ∨ ∃ t, stepBlock k blocks = blocks.set k t := by
  unfold stepBlock
  split
  · exact .inl rfl
  · split
    · exact .inr ⟨_, rfl⟩
    · exact .inl rfl
    · exact .inl rfl

/-- Settles O44: replacing block `k` leaves every other place of the list as it was. -/
theorem otherBlocksUntouched : Obligations.OtherBlocksUntouched := by
  intro k n blocks hn
  obtain hsame | ⟨t, hset⟩ := stepBlock_cases k blocks
  · rw [hsame]
  · rw [hset, List.getElem?_set_ne hn.symm]

end Sys2Proof.Machine
end

section
/-! PROOFS. Encoding (30_encoding.md): the decoder and the encoder are inverse to each other, which words fault and how, and
which commands return a word. -/

namespace Sys2Proof

/-! ### The decoder's checks (R64) -/

/-- What the decoder does with the fields of a word: an illegal opcode, a reserved bit that is set, or else the opcode map. -/
theorem decodeFields_cases (f : Fields) :
    (0x08 < f.op ∧ decodeFields f = .error .illegalCmd) ∨
    (f.op ≤ 0x08 ∧ (f.rsv ≠ 0 ∨ f.p = 1 ∧ f.op ≠ 0x04) ∧ decodeFields f = .error .reservedField) ∨
    (f.op ≤ 0x08 ∧ f.rsv = 0 ∧ (f.p = 1 → f.op = 0x04) ∧ decodeFields f = decodeOpcode f) := by
  unfold decodeFields
  split_ifs with hop hrsv hp
  · exact .inl ⟨hop, rfl⟩
  · exact .inr (.inl ⟨by omega, .inl hrsv, rfl⟩)
  · exact .inr (.inl ⟨by omega, .inr hp, rfl⟩)
  · exact .inr (.inr ⟨by omega, by omega, by omega, rfl⟩)

theorem decodeFields_of_illegal {f : Fields} (hop : 0x08 < f.op) : decodeFields f = .error .illegalCmd := by
  rw [decodeFields, if_pos hop]

/-- RSV, or P where the opcode has none, is set: the order of the two checks does not matter, for both fault alike (R60, R61). -/
theorem decodeFields_of_reserved {f : Fields} (hop : f.op ≤ 0x08) (h : f.rsv ≠ 0 ∨ f.p = 1 ∧ f.op ≠ 0x04) :
    decodeFields f = .error .reservedField := by
  obtain ⟨hill, -⟩ | ⟨-, -, hd⟩ | ⟨-, hrsv, hp, -⟩ := decodeFields_cases f
  · omega
  · exact hd
  · omega

theorem decodeFields_of_legal {f : Fields} (hop : f.op ≤ 0x08) (hrsv : f.rsv = 0) (hp : f.p = 1 → f.op = 0x04) :
    decodeFields f = decodeOpcode f := by
  obtain ⟨hill, -⟩ | ⟨-, hres, -⟩ | ⟨-, -, -, hd⟩ := decodeFields_cases f
  · omega
  · omega
  · exact hd

/-! ### Decoding an encoded command (R53, R56, R57, R58) -/

/-- The operand-free fields of every encoding are legal, by the lemma of its constructor. -/
theorem encodeFields_legal (i : Instr) : Laws.Encoding.Statement i := by
  cases i with
  | nop => exact Laws.Encoding.nop
  | init => exact Laws.Encoding.init
  | pack => exact Laws.Encoding.pack ..
  | pad => exact Laws.Encoding.pad ..
  | compress => exact Laws.Encoding.compress _
  | compressP => exact Laws.Encoding.compressP
  | rdreg => exact Laws.Encoding.rdreg _
  | wrreg => exact Laws.Encoding.wrreg ..
  | rdsb => exact Laws.Encoding.rdsb _
  | wrsb => exact Laws.Encoding.wrsb ..

/-- The opcode map reads back the operands of every encoding; PAD's `M` comes in two halves (R58). -/
theorem decodeOpcode_encodeFields (i : Instr) : decodeOpcode (encodeFields i) = .ok i := by
  cases i with
  | pad len msgLen => simp [decodeOpcode, encodeFields, Nat.div_add_mod']
  | wrreg r v => simp [decodeOpcode, encodeFields]
  | wrsb j v => simp [decodeOpcode, encodeFields]
  | _ => rfl

/-- Settles O29: the fields survive being put together because they fit, and they pass the decoder's checks. -/
theorem decodeOfEncode : Obligations.DecodeOfEncode := by
  intro i hi
  obtain ⟨hop, hrsv, hp⟩ := encodeFields_legal i
  rw [decode, encode, splitFields_joinFields (encodeFields_inRange hi), decodeFields_of_legal hop hrsv hp,
    decodeOpcode_encodeFields]

/-! ### Encoding a decoded command (R61) -/

/-- The outcome of decoding the fields `f` under a legal opcode: a RESERVED_FIELD fault, or a command that fits its fields
and whose encoding is `f`. -/
def DecodedFrom (f : Fields) (o : Except Cause Instr) : Prop :=
  o = .error .reservedField ∨ ∃ i, o = .ok i ∧ i.wellFormed = true ∧ encodeFields i = f

theorem DecodedFrom.ok {f : Fields} {i : Instr} (hi : i.wellFormed = true) (hf : encodeFields i = f) :
    DecodedFrom f (.ok i) := .inr ⟨i, rfl, hi, hf⟩

theorem DecodedFrom.whenUnusedZero {f : Fields} {z : Bool} {i : Instr} (hi : i.wellFormed = true)
    (hf : z = true → encodeFields i = f) : DecodedFrom f (whenUnusedZero z i) := by
  cases z with
  | false => exact .inl rfl
  | true => exact .ok hi (hf rfl)

theorem fits32_iff (n : Nat) : fits32 n = true ↔ n < 2 ^ 32 := decide_eq_true_iff

theorem fits64_iff (n : Nat) : fits64 n = true ↔ n < 2 ^ 64 := decide_eq_true_iff

/-- The opcode map keeps every bit of the word: an operand is kept in the command, and a field with no operand is zero. -/
theorem decodedFrom_decodeOpcode {f : Fields} (hf : f.inRange) (hop : f.op ≤ 0x08) (hrsv : f.rsv = 0)
    (hp : f.p = 1 → f.op = 0x04) : DecodedFrom f (decodeOpcode f) := by
  obtain ⟨op, p, rsv, a, b, x⟩ := f
  obtain ⟨-, hp1, -, ha, hb, hx⟩ := hf
  simp only at hop hrsv hp hp1 ha hb hx
  have hfa := (fits32_iff a).mpr ha
  have hfb := (fits32_iff b).mpr hb
  have hfx := (fits32_iff x).mpr hx
  obtain rfl | ⟨rfl, rfl⟩ : p = 0 ∨ p = 1 ∧ op = 0x04 := by omega
  case inr => exact .whenUnusedZero rfl fun hz => by simp_all [encodeFields]
  subst hrsv
  obtain rfl | rfl | rfl | rfl | hone : op = 0x00 ∨ op = 0x01 ∨ op = 0x02 ∨ op = 0x03 ∨ 0x04 ≤ op := by omega
  · exact .whenUnusedZero rfl fun hz => by simp_all [encodeFields]
  · exact .whenUnusedZero rfl fun hz => by simp_all [encodeFields]
  · exact .ok (by simp [Instr.wellFormed, hfa, hfb, hfx]) rfl
  · have hm : fits64 (x * 4294967296 + b) = true := (fits64_iff _).mpr (by omega)
    have hlow : (x * 4294967296 + b) % 4294967296 = b := by omega
    have hhigh : (x * 4294967296 + b) / 4294967296 = x := by omega
    exact .ok (by simp [Instr.wellFormed, hfa, hm]) (by simp [encodeFields, hlow, hhigh])
  · -- from COMPRESS on, the one operand that has to fit is OPA
    interval_cases op <;> exact .whenUnusedZero hfa fun hz => by simp_all [encodeFields]

/-- What the decoder does with a word: an illegal opcode faults, and any other word faults on a reserved field or is the
encoding of its command. -/
theorem decode_cases (w : CommandWord) :
    (¬ w.extractLsb' 0 8 ≤ 0x08#8 ∧ decode w = .error .illegalCmd) ∨
    (w.extractLsb' 0 8 ≤ 0x08#8 ∧ DecodedFrom (splitFields w) (decode w)) := by
  obtain ⟨hop, hd⟩ | ⟨hop, -, hd⟩ | ⟨hop, hrsv, hp, hd⟩ := decodeFields_cases (splitFields w)
  · exact .inl ⟨Nat.not_le.mpr hop, hd⟩
  · exact .inr ⟨hop, .inl hd⟩
  · rw [decode, hd]
    exact .inr ⟨hop, decodedFrom_decodeOpcode (splitFields_inRange w) hop hrsv hp⟩

/-- Settles O30: by `decode_cases`, a command decoded from a word has the word's own fields, which make up the word again. -/
theorem legalWordIsItsEncoding : Obligations.LegalWordIsItsEncoding := by
  intro w
  obtain ⟨hop, hd⟩ | ⟨hop, hd | ⟨i, hd, hi, hf⟩⟩ := decode_cases w <;> rw [hd]
  · refine ⟨nofun, fun c hc => ?_⟩
    rw [if_neg hop]
    cases hc; rfl
  · refine ⟨nofun, fun c hc => ?_⟩
    rw [if_pos hop]
    cases hc; rfl
  · refine ⟨fun j hj => ?_, nofun⟩
    cases hj
    exact ⟨hi, by rw [encode, hf, joinFields_splitFields]⟩

end Sys2Proof

namespace Sys2Proof.Machine

/-! ### Words that fault in the decoder (R60, R62) -/

theorem runCommand_of_decode_error {w : CommandWord} {c : Cause} {s : State} (h : decode w = .error c)
    (herr : s.err = false) : runCommand w s = .next { s with status := faultStatus c, result := 0x00000000#32 } := by
  simp only [runCommand, h, State.finish_raise herr]

/-- P is the word's bit 8 (R53). -/
theorem splitFields_p_of_getLsbD {w : CommandWord} (h : w.getLsbD 8 = true) : (splitFields w).p = 1 := by
  have hbit : w.extractLsb' 8 1 = 1#1 := by
    ext i hi
    simp [show i = 0 by omega, h]
  simp [splitFields, fieldOf, hbit]

/-- Settles O28, each clause by the decoder's check of its field. -/
theorem reservedEncodingsFault : Obligations.ReservedEncodingsFault := by
  intro w s herr
  refine ⟨fun hop => ?_, fun hop hrsv => ?_, fun hop hp h4 => ?_⟩
  · exact runCommand_of_decode_error (c := .illegalCmd) (decodeFields_of_illegal hop) herr
  · have hrsv' : (splitFields w).rsv ≠ 0 := fun h => hrsv (BitVec.eq_of_toNat_eq h)
    exact runCommand_of_decode_error (c := .reservedField) (decodeFields_of_reserved hop (.inl hrsv')) herr
  · have h4' : (splitFields w).op ≠ 0x04 := fun h => h4 (BitVec.eq_of_toNat_eq h)
    have hreserved := decodeFields_of_reserved hop (.inr ⟨splitFields_p_of_getLsbD hp, h4'⟩)
    exact runCommand_of_decode_error (c := .reservedField) hreserved herr

/-! ### Result words (R55) -/

/-- The word a rule returns, zero where it faults (R141). -/
def RuleOutcome.result : RuleOutcome → Word
  | .ok _ r => r
  | .raise _ => 0x00000000#32

/-- A command returns its rule's word, unless ERR = 1 and it is no read (R144). -/
theorem finish_result {s t : State} {isRead : Bool} {o : RuleOutcome} (h : s.finish isRead o = .next t) :
    t.result = if s.err && !isRead then 0x00000000#32 else o.result := by
  cases he : s.err with
  | false =>
    cases o with
    | ok u r => rw [State.finish_ok he] at h; cases h; rfl
    | raise c => rw [State.finish_raise he] at h; cases h; rfl
  | true =>
    cases o with
    | ok u r => rw [State.finish_ok_err he] at h; cases h; cases isRead <;> rfl
    | raise c => rw [State.finish_raise_err he] at h; cases h; cases isRead <;> rfl

theorem ruleOf_result_of_not_read {i : Instr} (h : isReadCommand i = false) (s : State) :
    (ruleOf i s).result = 0x00000000#32 := by
  cases i with
  | nop => rfl
  | init => rfl
  | pack => simp only [ruleOf, rulePack]; split_ifs <;> rfl
  | pad => simp only [ruleOf, rulePad]; split_ifs <;> rfl
  | compress => simp only [ruleOf, ruleCompress]; split_ifs <;> rfl
  | compressP => simp only [ruleOf, ruleCompress]; split_ifs <;> rfl
  | wrreg => simp only [ruleOf, ruleWrreg]; split_ifs <;> rfl
  | wrsb => simp only [ruleOf, ruleWrsb]; split_ifs <;> rfl
  | rdreg => cases h
  | rdsb => cases h

/-- ERR does not matter to a command's result word: a read ignores it, and what is no read returns zero either way. -/
theorem exec_result {i : Instr} {s t : State} (h : exec i s = .next t) : t.result = (ruleOf i s).result := by
  rw [finish_result (exec_eq_finish i s ▸ h)]
  cases hi : isReadCommand i with
  | true => simp
  | false => simp [ruleOf_result_of_not_read hi]

theorem ruleRdreg_result (r : Nat) (s : State) : (ruleRdreg r s).result = (s.readRegister r).getD 0x00000000#32 := by
  unfold ruleRdreg
  cases s.readRegister r <;> rfl

theorem ruleRdsb_result (j : Nat) (s : State) :
    (ruleRdsb j s).result = if j < (s.cfg.chunk + 64) / 4 then s.sbWord j else 0x00000000#32 := by
  have hj : s.cfg.wordInSb j = true ↔ j < (s.cfg.chunk + 64) / 4 := wordInSb_iff s.cfg j
  simp only [ruleRdsb, hj]
  split_ifs <;> rfl

/-- Settles O25, by what the word decodes to and, for a command, whether it is a read. -/
theorem onlyReadsReturnWords : Obligations.OnlyReadsReturnWords := by
  intro w s t h
  cases hd : decode w with
  | error c =>
    simp only [runCommand, hd] at h
    rw [finish_result h]
    exact ite_self _
  | ok i =>
    rw [runCommand_of_decode hd] at h
    rw [exec_result h]
    cases i with
    | rdreg r => exact ruleRdreg_result r s
    | rdsb j => exact ruleRdsb_result j s
    | _ => exact ruleOf_result_of_not_read rfl s

end Sys2Proof.Machine
end

section
/-! PROOFS. Text (30_encoding.md): the text form of a command word reads back as the word, and the assembler reads back the
line of a command. -/

namespace Sys2Proof.Machine

/-! ### Hexadecimal digits -/

theorem digitValue_hexChar : ∀ d < 16, digitValue (hexChar d) = some d := by decide

theorem digitsValue_append (base : Nat) (xs ys : List Char) (acc : Nat) :
    digitsValue base acc (xs ++ ys) = (digitsValue base acc xs).bind fun v => digitsValue base v ys := by
  induction xs generalizing acc with
  | nil => rfl
  | cons c cs ih =>
    simp only [List.cons_append, digitsValue]
    cases digitValue c with
    | none => rfl
    | some d =>
      simp only [ih]
      split_ifs <;> rfl

/-- `count` digits carry the number modulo `16 ^ count`. -/
theorem digitsValue_hexDigits (count n : Nat) : digitsValue 16 0 (hexDigits count n) = some (n % 16 ^ count) := by
  induction count generalizing n with
  | zero => simp [hexDigits, digitsValue, Nat.mod_one]
  | succ count ih =>
    have hd : n % 16 < 16 := Nat.mod_lt n (by decide)
    have hn : n / 16 % 16 ^ count * 16 + n % 16 = n % 16 ^ (count + 1) := by
      rw [Nat.pow_succ', Nat.mod_mul]
      ring
    simp [hexDigits, digitsValue_append, ih, digitsValue, digitValue_hexChar _ hd, hd, hn]

theorem length_hexDigits (count n : Nat) : (hexDigits count n).length = count := by
  induction count generalizing n with
  | zero => rfl
  | succ count ih => simp [hexDigits, ih]

/-- What holds of the sixteen digits holds of every character written. -/
theorem forall_mem_hexDigits {p : Char → Prop} (hp : ∀ d < 16, p (hexChar d)) (count n : Nat) :
    ∀ c ∈ hexDigits count n, p c := by
  induction count generalizing n with
  | zero => exact fun c hc => absurd hc List.not_mem_nil
  | succ count ih =>
    intro c hc
    rcases List.mem_append.mp hc with hc | hc
    · exact ih _ c hc
    · rw [List.mem_singleton.mp hc]
      exact hp _ (Nat.mod_lt n (by decide))

/-! ### Texts between separators -/

theorem splitText_of_notMem {sep : Char} {part : List Char} (h : sep ∉ part) : splitText sep part = [part] := by
  induction part with
  | nil => rfl
  | cons c cs ih =>
    obtain ⟨hc, hcs⟩ := List.ne_and_not_mem_of_not_mem_cons h
    simp [splitText, Ne.symm hc, ih hcs]

theorem splitText_append {sep : Char} {part : List Char} (h : sep ∉ part) (rest : List Char) :
    splitText sep (part ++ sep :: rest) = part :: splitText sep rest := by
  induction part with
  | nil => simp [splitText]
  | cons c cs ih =>
    obtain ⟨hc, hcs⟩ := List.ne_and_not_mem_of_not_mem_cons h
    simp [splitText, Ne.symm hc, ih hcs]

/-! ### The text form of a command word (R65) -/

theorem underscore_notMem_hexDigits (count n : Nat) : '_' ∉ hexDigits count n := fun h =>
  forall_mem_hexDigits (p := (· ≠ '_')) (by decide) count n '_' h rfl

theorem readGroup_hexDigits (w : CommandWord) (lo : Nat) :
    readGroup (hexDigits 8 (fieldOf w lo 32)) = some (fieldOf w lo 32) := by
  have hlt : fieldOf w lo 32 < 16 ^ 8 := (w.extractLsb' lo 32).isLt
  rw [readGroup, if_pos (length_hexDigits ..), digitsValue_hexDigits, Nat.mod_eq_of_lt hlt]

/-- A command word is its four 32-bit groups. -/
theorem append_groups (w : CommandWord) :
    BitVec.ofNat 32 (fieldOf w 96 32) ++ BitVec.ofNat 32 (fieldOf w 64 32) ++ BitVec.ofNat 32 (fieldOf w 32 32) ++
      BitVec.ofNat 32 (fieldOf w 0 32) = w := by
  have hw := w.isLt
  apply BitVec.eq_of_toNat_eq
  simp only [toNat_append_eq, BitVec.toNat_ofNat, fieldOf, BitVec.extractLsb'_toNat, Nat.shiftRight_eq_div_pow]
  omega

theorem readTextForm_textForm (w : CommandWord) : readTextForm (textForm w) = some w := by
  have hsep := underscore_notMem_hexDigits 8
  simp only [readTextForm, textForm, List.append_assoc, List.cons_append, splitText_append (hsep _),
    splitText_of_notMem (hsep _), readGroup_hexDigits, append_groups]

theorem length_textForm (w : CommandWord) : (textForm w).length = 35 := by
  simp [textForm, length_hexDigits]

/-- Settles O45: the groups hold no separator, so they are read one by one; the word of COMPRESS.P is computed. -/
theorem textFormReadsBack : Obligations.TextFormReadsBack :=
  ⟨fun w => ⟨readTextForm_textForm w, length_textForm w⟩, by decide⟩

/-! ### Assembler lines (R66) -/

/-- Neither a blank nor one of the two marks of a line, `,` and `;`. -/
def isPlainChar (c : Char) : Bool := !isBlank c && c != ',' && c != ';'

/-- A text that stands on its own in a line: a mnemonic or an operand. -/
structure Plain (cs : List Char) : Prop where
  nonempty : cs ≠ []
  chars : ∀ c ∈ cs, isPlainChar c = true

namespace Plain
variable {cs : List Char} (h : Plain cs)
include h

theorem not_blank {c : Char} (hc : c ∈ cs) : isBlank c = false := by
  have hplain := h.chars c hc
  simp only [isPlainChar, Bool.and_eq_true, Bool.not_eq_true'] at hplain
  exact hplain.1.1

theorem forall_not_isBlank : ∀ c ∈ cs, (!isBlank c) = true := fun c hc => by
  rw [h.not_blank hc, Bool.not_false]

theorem comma_notMem : ',' ∉ cs := fun hc => absurd (h.chars _ hc) (by decide)

theorem semicolon_notMem : ';' ∉ cs := fun hc => absurd (h.chars _ hc) (by decide)

end Plain

/-- A text with no blank at its two ends. -/
structure Trimmed (cs : List Char) : Prop where
  front : cs.dropWhile isBlank = cs
  back : cs.reverse.dropWhile isBlank = cs.reverse

theorem Trimmed.trimText {cs : List Char} (h : Trimmed cs) : trimText cs = cs := by
  rw [Machine.trimText, h.front, h.back, List.reverse_reverse]

theorem trimText_space_cons (cs : List Char) : trimText (' ' :: cs) = trimText cs := rfl

theorem dropWhile_isBlank_of_forall {cs : List Char} (h : ∀ c ∈ cs, isBlank c = false) : cs.dropWhile isBlank = cs := by
  cases cs with
  | nil => rfl
  | cons c cs => rw [List.dropWhile_cons_of_neg (by simp [h c List.mem_cons_self])]

theorem Plain.trimmed {cs : List Char} (h : Plain cs) : Trimmed cs where
  front := dropWhile_isBlank_of_forall fun _ hc => h.not_blank hc
  back := dropWhile_isBlank_of_forall fun _ hc => h.not_blank (List.mem_reverse.mp hc)

theorem dropWhile_append_of_eq_self {p : Char → Bool} {xs : List Char} (h : xs.dropWhile p = xs) (hne : xs ≠ [])
    (ys : List Char) : (xs ++ ys).dropWhile p = xs ++ ys := by
  rw [List.dropWhile_append, h, if_neg (by simpa using hne)]

/-- Blanks inside a text are none at its ends. -/
theorem Trimmed.append {xs ys : List Char} (hx : Trimmed xs) (hy : Trimmed ys) (hx0 : xs ≠ []) (hy0 : ys ≠ [])
    (mid : List Char) : Trimmed (xs ++ (mid ++ ys)) where
  front := dropWhile_append_of_eq_self hx.front hx0 _
  back := by
    rw [List.reverse_append, List.reverse_append, List.append_assoc]
    exact dropWhile_append_of_eq_self hy.back (by simpa using hy0) _

/-- Operands as `showInstr` writes them, a comma and a space between two of them. -/
def joinOperands : List (List Char) → List Char
  | [] => []
  | [x] => x
  | x :: y :: ops => x ++ ([',', ' '] ++ joinOperands (y :: ops))

/-- A line as `showInstr` writes it. -/
def lineOf (mnemonic : List Char) : List (List Char) → List Char
  | [] => mnemonic
  | x :: ops => mnemonic ++ ([' '] ++ joinOperands (x :: ops))

theorem joinOperands_ne_nil {x : List Char} (hx : Plain x) (ops : List (List Char)) : joinOperands (x :: ops) ≠ [] := by
  cases ops with
  | nil => exact hx.nonempty
  | cons y ops => simp [joinOperands]

theorem trimmed_joinOperands {x : List Char} {ops : List (List Char)} (h : ∀ op ∈ x :: ops, Plain op) :
    Trimmed (joinOperands (x :: ops)) := by
  induction ops generalizing x with
  | nil => exact (h x List.mem_cons_self).trimmed
  | cons y ops ih =>
    have hx := h x List.mem_cons_self
    have hrest : ∀ op ∈ y :: ops, Plain op := fun op hop => h op (List.mem_cons_of_mem x hop)
    exact hx.trimmed.append (ih hrest) hx.nonempty (joinOperands_ne_nil (hrest y List.mem_cons_self) ops) _

theorem splitText_ne_nil (sep : Char) (cs : List Char) : splitText sep cs ≠ [] := by
  cases cs with
  | nil => simp [splitText]
  | cons c cs =>
    simp only [splitText]
    split
    · simp
    · split <;> simp

/-- A space after a comma is trimmed from the operand it stands before. -/
theorem map_trimText_splitText_space_cons (cs : List Char) :
    (splitText ',' (' ' :: cs)).map trimText = (splitText ',' cs).map trimText := by
  cases hcs : splitText ',' cs with
  | nil => exact absurd hcs (splitText_ne_nil ',' cs)
  | cons part parts => simp [splitText, hcs, trimText_space_cons]

/-- The operands of a line come apart again at its commas. -/
theorem map_trimText_splitText_joinOperands {x : List Char} {ops : List (List Char)} (h : ∀ op ∈ x :: ops, Plain op) :
    (splitText ',' (joinOperands (x :: ops))).map trimText = x :: ops := by
  have hx := h x List.mem_cons_self
  induction ops generalizing x with
  | nil => rw [joinOperands, splitText_of_notMem hx.comma_notMem, List.map_singleton, hx.trimmed.trimText]
  | cons y ops ih =>
    have hrest : ∀ op ∈ y :: ops, Plain op := fun op hop => h op (List.mem_cons_of_mem x hop)
    rw [joinOperands, List.cons_append, splitText_append hx.comma_notMem, List.map_cons, hx.trimmed.trimText,
      List.singleton_append, map_trimText_splitText_space_cons, ih hrest (hrest y List.mem_cons_self)]

section
variable {mnemonic : List Char} {ops : List (List Char)} (hm : Plain mnemonic) (hops : ∀ op ∈ ops, Plain op)

include hops in
theorem semicolon_notMem_joinOperands : ';' ∉ joinOperands ops := by
  fun_induction joinOperands ops with
  | case1 => simp
  | case2 x => exact (hops x List.mem_cons_self).semicolon_notMem
  | case3 x y ops ih =>
    have hx := (hops x List.mem_cons_self).semicolon_notMem
    have hrest := ih fun op hop => hops op (List.mem_cons_of_mem x hop)
    simp [hx, hrest]

include hm hops

theorem semicolon_notMem_lineOf : ';' ∉ lineOf mnemonic ops := by
  have hrest := semicolon_notMem_joinOperands hops
  cases ops with
  | nil => exact hm.semicolon_notMem
  | cons x ops => simp [lineOf, hm.semicolon_notMem, hrest]

theorem trimmed_lineOf : Trimmed (lineOf mnemonic ops) := by
  cases ops with
  | nil => exact hm.trimmed
  | cons x ops =>
    exact hm.trimmed.append (trimmed_joinOperands hops) hm.nonempty (joinOperands_ne_nil (hops x List.mem_cons_self) ops) _

theorem takeWhile_lineOf_semicolon : (lineOf mnemonic ops).takeWhile (· != ';') = lineOf mnemonic ops := by
  rw [List.takeWhile_eq_self_iff]
  intro c hc
  rw [bne_iff_ne]
  rintro rfl
  exact semicolon_notMem_lineOf hm hops hc

omit hops in
theorem takeWhile_lineOf : (lineOf mnemonic ops).takeWhile (fun c => !isBlank c) = mnemonic := by
  cases ops with
  | nil => exact List.takeWhile_eq_self_iff.mpr hm.forall_not_isBlank
  | cons x ops =>
    rw [lineOf, List.takeWhile_append_of_pos hm.forall_not_isBlank, List.singleton_append, List.takeWhile_cons_of_neg (by decide),
      List.append_nil]

omit hops in
theorem trimText_dropWhile_lineOf :
    trimText ((lineOf mnemonic ops).dropWhile fun c => !isBlank c) = trimText (joinOperands ops) := by
  cases ops with
  | nil => rw [lineOf, List.dropWhile_eq_nil_iff.mpr hm.forall_not_isBlank, joinOperands]
  | cons x ops =>
    rw [lineOf, List.dropWhile_append_of_pos hm.forall_not_isBlank, List.singleton_append, List.dropWhile_cons_of_neg (by decide),
      trimText_space_cons]

omit hm in
/-- The operands `assembleLine` finds in what stands after the mnemonic. -/
theorem operands_joinOperands :
    (if trimText (joinOperands ops) = [] then [] else (splitText ',' (trimText (joinOperands ops))).map trimText) =
      ops := by
  cases ops with
  | nil => rfl
  | cons x ops =>
    have hx := hops x List.mem_cons_self
    rw [(trimmed_joinOperands hops).trimText, if_neg (joinOperands_ne_nil hx ops), map_trimText_splitText_joinOperands hops]

/-- A line is read by its mnemonic's assembler, from its operands. -/
theorem assembleLine_lineOf {assemble : List (List Char) → Except AsmError (List Instr)}
    (hlookup : assemblers.lookup mnemonic = some assemble) : assembleLine (lineOf mnemonic ops) = assemble ops := by
  have hempty : lineOf mnemonic ops ≠ [] := by
    cases ops <;> simp [lineOf, hm.nonempty]
  simp only [assembleLine, takeWhile_lineOf_semicolon hm hops, (trimmed_lineOf hm hops).trimText, if_neg hempty,
    takeWhile_lineOf hm, hlookup, trimText_dropWhile_lineOf hm, operands_joinOperands hops]

end

/-! ### The operands of a command -/

theorem plain_hex (count n : Nat) : Plain (['0', 'x'] ++ hexDigits count n) where
  nonempty := by simp
  chars := by
    simpa [show isPlainChar '0' = true from rfl, show isPlainChar 'x' = true from rfl] using
      forall_mem_hexDigits (p := fun c => isPlainChar c = true) (by decide) count n

theorem plain_showNumber (n : Nat) : Plain (showNumber n) := plain_hex 8 n

theorem plain_showLong (n : Nat) : Plain (showLong n) := plain_hex 16 n

theorem readNumber_hex {count n : Nat} (hcount : count ≠ 0) (hn : n < 16 ^ count) :
    readNumber (['0', 'x'] ++ hexDigits count n) = some n := by
  have hlen := length_hexDigits count n
  have hval := digitsValue_hexDigits count n
  rw [Nat.mod_eq_of_lt hn] at hval
  cases hds : hexDigits count n with
  | nil => rw [hds] at hlen; exact absurd hlen.symm hcount
  | cons d ds => rw [hds] at hval; exact hval

theorem readNumber_showNumber {n : Nat} (hn : n < 2 ^ 32) : readNumber (showNumber n) = some n :=
  readNumber_hex (by decide) hn

theorem readNumber_showLong {n : Nat} (hn : n < 2 ^ 64) : readNumber (showLong n) = some n :=
  readNumber_hex (by decide) hn

/-- No register's name begins with a digit. -/
theorem readRegisterName_showNumber {n : Nat} (hn : n < 2 ^ 32) : readRegisterName (showNumber n) = some n := by
  have hname : registerNames.lookup (showNumber n) = none := rfl
  rw [readRegisterName, hname, readNumber_showNumber hn]

theorem readValue_showNumber (v : Word) : readValue (showNumber v.toNat) = .ok v := by
  have hv := (fits32_iff v.toNat).mpr v.isLt
  simp [readValue, readNumber_showNumber v.isLt, hv]

theorem operandsFit_of_wellFormed {i : Instr} (h : i.wellFormed = true) : operandsFit (some i) = .ok [i] := by
  rw [operandsFit, if_pos h]

section
variable {read : List Char → Option Nat} {text : List Char} {n : Nat} (hread : read text = some n)
include hread

theorem assembleOne_of_read {make : Nat → Instr} (h : (make n).wellFormed = true) :
    assembleOne read make [text] = .ok [make n] := by
  rw [assembleOne, hread, Option.map_some, operandsFit_of_wellFormed h]

theorem assembleTwo_of_read {make : Nat → Word → Instr} {v : Word} (h : (make n v).wellFormed = true) :
    assembleTwo read make [text, showNumber v.toNat] = .ok [make n v] := by
  rw [assembleTwo, readValue_showNumber, hread]
  exact operandsFit_of_wellFormed h

end

/-! ### The line of a command -/

/-- The mnemonic of `showInstr`'s line. -/
def mnemonicOf : Instr → List Char
  | .nop => ['N', 'O', 'P']
  | .init => ['I', 'N', 'I', 'T']
  | .pack .. => ['P', 'A', 'C', 'K']
  | .pad .. => ['P', 'A', 'D']
  | .compress _ => ['C', 'O', 'M', 'P', 'R', 'E', 'S', 'S']
  | .compressP => ['C', 'O', 'M', 'P', 'R', 'E', 'S', 'S', '.', 'P']
  | .rdreg _ => ['R', 'D', 'R', 'E', 'G']
  | .wrreg .. => ['W', 'R', 'R', 'E', 'G']
  | .rdsb _ => ['R', 'D', 'S', 'B']
  | .wrsb .. => ['W', 'R', 'S', 'B']

/-- The operands of `showInstr`'s line. -/
def operandsOf : Instr → List (List Char)
  | .pack src count dst => [showNumber src, showNumber count, showNumber dst]
  | .pad len msgLen => [showNumber len, showLong msgLen]
  | .compress len => [showNumber len]
  | .rdreg r => [showNumber r]
  | .wrreg r v => [showNumber r, showNumber v.toNat]
  | .rdsb j => [showNumber j]
  | .wrsb j v => [showNumber j, showNumber v.toNat]
  | .nop | .init | .compressP => []

theorem showInstr_eq_lineOf (i : Instr) : showInstr i = lineOf (mnemonicOf i) (operandsOf i) := by
  cases i <;> simp [showInstr, lineOf, mnemonicOf, operandsOf, joinOperands]

theorem plain_mnemonicOf (i : Instr) : Plain (mnemonicOf i) where
  nonempty := by cases i <;> exact List.cons_ne_nil _ _
  chars := List.all_eq_true.mp (by cases i <;> rfl)

theorem plain_of_mem_operandsOf (i : Instr) : ∀ op ∈ operandsOf i, Plain op := by
  cases i <;> simp [operandsOf, plain_showNumber, plain_showLong]

/-- The mnemonic of a command names the assembler that reads the command back from its operands. -/
theorem exists_assembler {i : Instr} (h : i.wellFormed = true) :
    ∃ assemble, assemblers.lookup (mnemonicOf i) = some assemble ∧ assemble (operandsOf i) = .ok [i] := by
  cases i with
  | nop => exact ⟨_, rfl, rfl⟩
  | init => exact ⟨_, rfl, rfl⟩
  | compressP => exact ⟨_, rfl, rfl⟩
  | pack src count dst =>
    obtain ⟨⟨hsrc, hcount⟩, hdst⟩ : (src < 2 ^ 32 ∧ count < 2 ^ 32) ∧ dst < 2 ^ 32 := by
      simpa only [Instr.wellFormed, Bool.and_eq_true, fits32_iff] using h
    refine ⟨_, rfl, ?_⟩
    rw [operandsOf, assemblePack, readNumber_showNumber hsrc, readNumber_showNumber hcount, readNumber_showNumber hdst]
    exact operandsFit_of_wellFormed h
  | pad len msgLen =>
    obtain ⟨hlen, hmsg⟩ : len < 2 ^ 32 ∧ msgLen < 2 ^ 64 := by
      simpa only [Instr.wellFormed, Bool.and_eq_true, fits32_iff, fits64_iff] using h
    refine ⟨_, rfl, ?_⟩
    rw [operandsOf, assemblePad, readNumber_showNumber hlen, readNumber_showLong hmsg]
    exact operandsFit_of_wellFormed h
  | compress len => exact ⟨_, rfl, assembleOne_of_read (readNumber_showNumber ((fits32_iff len).mp h)) h⟩
  | rdreg r => exact ⟨_, rfl, assembleOne_of_read (readRegisterName_showNumber ((fits32_iff r).mp h)) h⟩
  | wrreg r v => exact ⟨_, rfl, assembleTwo_of_read (readRegisterName_showNumber ((fits32_iff r).mp h)) h⟩
  | rdsb j => exact ⟨_, rfl, assembleOne_of_read (readNumber_showNumber ((fits32_iff j).mp h)) h⟩
  | wrsb j v => exact ⟨_, rfl, assembleTwo_of_read (readNumber_showNumber ((fits32_iff j).mp h)) h⟩

/-- Settles O46: the line's mnemonic and operands are found again, and each operand is read as it was written. -/
theorem assemblerReadsBack : Obligations.AssemblerReadsBack := by
  intro i hi
  obtain ⟨assemble, hlookup, hread⟩ := exists_assembler hi
  rw [showInstr_eq_lineOf, assembleLine_lineOf (plain_mnemonicOf i) (plain_of_mem_operandsOf i) hlookup, hread]

end Sys2Proof.Machine
end

section
/-! PROOFS. The packer (40_packer.md): PACK's words, the bytes it copies and its faults, and where a packed byte
stands in its word. -/

namespace Sys2Proof

/-! ### Words with P and RSV zero (R53, R60, R61) -/

/-- Bits 31:8 of a word are P and RSV (R53). -/
theorem extractLsb'_8_24_eq_zero_iff (w : CommandWord) :
    w.extractLsb' 8 24 = 0 ↔ (splitFields w).p = 0 ∧ (splitFields w).rsv = 0 := by
  simp only [← BitVec.toNat_inj, splitFields, fieldOf, BitVec.extractLsb'_toNat, Nat.shiftRight_eq_div_pow,
    BitVec.ofNat_eq_ofNat, BitVec.toNat_ofNat]
  omega

/-- A word of a legal opcode without P: bits 31:8 are zero and the opcode map decides, or the word faults (R60, R61). -/
theorem decode_of_unflagged {w : CommandWord} (hop : (splitFields w).op ≤ 0x08) (h4 : (splitFields w).op ≠ 0x04) :
    decode w = if w.extractLsb' 8 24 = 0 then decodeOpcode (splitFields w) else .error .reservedField := by
  have hbits := extractLsb'_8_24_eq_zero_iff w
  split
  case isTrue hzero =>
    obtain ⟨hp, hrsv⟩ := hbits.mp hzero
    exact decodeFields_of_legal hop hrsv (by omega)
  case isFalse hset =>
    have hp : (splitFields w).p < 2 := (w.extractLsb' 8 1).isLt
    have hflags := mt hbits.mpr hset
    exact decodeFields_of_reserved hop (by omega)

/-- The opcode map keeps PACK's three operands as they stand (R57). -/
theorem decodeOpcode_pack {f : Fields} (hop : f.op = 0x02) : decodeOpcode f = .ok (.pack f.a f.b f.x) := by
  simp only [decodeOpcode, hop]

end Sys2Proof

namespace Sys2Proof.Machine

/-! ### How a command ends while ERR = 0, by its rule (R144) -/

section
variable {i : Instr} {s t u : State} {r : Word} {c : Cause} (he : s.err = false)
include he

theorem exec_of_rule_ok (h : ruleOf i s = .ok u r) : exec i s = .next (u.setResult r) := by
  rw [exec_eq_finish, h, State.finish_ok he]

theorem exec_of_rule_raise (h : ruleOf i s = .raise c) :
    exec i s = .next { s with status := faultStatus c, result := 0x00000000#32 } := by
  rw [exec_eq_finish, h, State.finish_raise he]

/-- A command that leaves ERR at 0 had the effects of its rule. -/
theorem rule_ok_of_exec (ht : t.err = false) (h : exec i s = .next t) :
    ∃ u r, ruleOf i s = .ok u r ∧ t = u.setResult r := by
  obtain ⟨u, r, hok, -, hu⟩ | ⟨c, -, -, rfl⟩ | ⟨hset, -⟩ := State.finish_cases (exec_eq_finish i s ▸ h)
  · exact ⟨u, r, hok, hu⟩
  · exact absurd (faultStatus_err c) (Bool.eq_false_iff.mp ht)
  · exact absurd hset (Bool.eq_false_iff.mp he)

end

/-! ### PACK's rule (R72, R73, R74) -/

section
variable {src count dst : Nat} {s u : State} {r : Word}

theorem rulePack_zero : rulePack src 0 dst s = .ok s 0x00000000#32 := if_pos rfl

section
variable (hcount : 0 < count)
include hcount

theorem rulePack_of_fits (hsrc : src + count ≤ s.cfg.srcLen) (hdst : dst + count ≤ s.cfg.padcap) :
    rulePack src count dst s = .ok (s.setStaging (packed src count dst s)) 0x00000000#32 := by
  rw [rulePack, if_neg hcount.ne', if_neg hsrc.not_gt, if_neg hdst.not_gt]

theorem rulePack_past_src (hsrc : s.cfg.srcLen < src + count) : rulePack src count dst s = .raise .srcRange := by
  rw [rulePack, if_neg hcount.ne', if_pos hsrc]

theorem rulePack_past_sb (hsrc : src + count ≤ s.cfg.srcLen) (hdst : s.cfg.padcap < dst + count) :
    rulePack src count dst s = .raise .sbRange := by
  rw [rulePack, if_neg hcount.ne', if_neg hsrc.not_gt, if_pos hdst]

/-- A PACK of at least one byte that succeeds has made its copy: both ranges were kept. -/
theorem rulePack_ok (h : rulePack src count dst s = .ok u r) : u = s.setStaging (packed src count dst s) := by
  rcases Nat.lt_or_ge s.cfg.srcLen (src + count) with hsrc | hsrc
  · rw [rulePack_past_src hcount hsrc] at h; cases h
  rcases Nat.lt_or_ge s.cfg.padcap (dst + count) with hdst | hdst
  · rw [rulePack_past_sb hcount hsrc hdst] at h; cases h
  rw [rulePack_of_fits hcount hsrc hdst] at h
  cases h; rfl

end

/-! ### The bytes PACK copies (R69, R71) -/

theorem read_packed_add {k : Nat} (hk : k < count) : (packed src count dst s).read (dst + k) = s.src.read (src + k) := by
  rw [read_packed, if_pos (by omega), Nat.add_sub_cancel_left]

theorem read_packed_outside {a : Nat} (ha : a < dst ∨ dst + count ≤ a) :
    (packed src count dst s).read a = s.sb.read a := by
  rw [read_packed, if_neg (by omega)]

/-- After a PACK that does not fault each of its source bytes stands at its place in SB. -/
theorem exec_pack_read {t : State} {k : Nat} (he : s.err = false) (h : exec (.pack src count dst) s = .next t)
    (ht : t.err = false) (hk : k < count) : t.sb.read (dst + k) = s.src.read (src + k) := by
  obtain ⟨u, r, hok, rfl⟩ := rule_ok_of_exec he ht h
  rw [State.setResult_sb, rulePack_ok (Nat.zero_lt_of_lt hk) hok, State.setStaging_sb, read_packed_add hk]

end

/-- Settles O7, the words by the decoder's checks and each clause of the effect by its case of PACK's rule. -/
theorem packCopiesSourceBytes : Obligations.PackCopiesSourceBytes := by
  refine ⟨fun w hw => ?_, fun s src count dst he => ⟨?_, fun hcount hsrc hdst => ?_, fun hcount hsrc => ?_,
    fun hcount hsrc hdst => ?_⟩⟩
  · have hop : (splitFields w).op = 0x02 := congrArg BitVec.toNat hw
    rw [decode_of_unflagged (by omega) (by omega), decodeOpcode_pack hop]
    rfl
  · exact exec_of_rule_ok he rulePack_zero
  · exact ⟨packed src count dst s, exec_of_rule_ok (i := .pack ..) he (rulePack_of_fits hcount hsrc hdst),
      fun _ => read_packed_add, fun _ => read_packed_outside⟩
  · exact exec_of_rule_raise (i := .pack ..) he (rulePack_past_src hcount hsrc)
  · exact exec_of_rule_raise (i := .pack ..) he (rulePack_past_sb hcount hsrc hdst)

/-- Settles O8: the packed byte at `4j + i` is read out of word `j`. -/
theorem packedBytesStandInWords : Obligations.PackedBytesStandInWords := by
  intro s t src count dst he h ht
  refine ⟨fun k hk => exec_pack_read he h ht hk, fun k j i hk hi hplace => ?_⟩
  rw [State.sbWord, Memory.extract_readWord _ _ hi, wordAddr, ← hplace, exec_pack_read he h ht hk]

end Sys2Proof.Machine
end

section
/-! PROOFS. The padder (41_padding.md): the laws of the padded length, the length trailer as bits of `M`, and PAD's words,
the bytes it writes and its fault. -/

namespace Sys2Proof

/-! ### PAD's words (R58, R79) -/

/-- Bits 127:64 of a word are OPC and OPB together (R53, R58). -/
theorem toNat_extractLsb'_64_64 (w : CommandWord) :
    (w.extractLsb' 64 64).toNat = (splitFields w).x * 4294967296 + (splitFields w).b := by
  simp only [splitFields, fieldOf, BitVec.extractLsb'_toNat, Nat.shiftRight_eq_div_pow]
  omega

/-- The opcode map takes PAD's `L` as it stands and its `M` from two fields (R79). -/
theorem decodeOpcode_pad {f : Fields} (hop : f.op = 0x03) : decodeOpcode f = .ok (.pad f.a (f.x * 4294967296 + f.b)) := by
  simp only [decodeOpcode, hop]

end Sys2Proof

namespace Sys2Proof.Machine

/-! ### The padded length (R80, R87) -/

theorem paddedLength_eq (len : Nat) : paddedLength len = 64 * ((len + 9 + 63) / 64) := rfl

/-- A multiple of 64 has room for the padding of `len` bytes when it has room for nine bytes more (R80). -/
theorem paddedLength_le_iff {q : Nat} (len : Nat) (hq : q % 64 = 0) : paddedLength len ≤ q ↔ len + 9 ≤ q := by
  rw [paddedLength_eq]
  omega

/-- The terminator and the trailer fit in the final block (R87). -/
theorem paddedLength_of_mod_le {len : Nat} (h : len % 64 ≤ 55) : paddedLength len = 64 * (len / 64) + 64 := by
  rw [paddedLength_eq]
  omega

/-- The padding needs one more block (R87). -/
theorem paddedLength_of_le_mod {len : Nat} (h : 56 ≤ len % 64) : paddedLength len = 64 * (len / 64) + 128 := by
  rw [paddedLength_eq]
  omega

/-- Settles O11: the bounds, `paddedLength_le_iff` for the least multiple, and the two cases of R87. -/
theorem paddedLengthIsLeast : Obligations.PaddedLengthIsLeast := by
  intro len
  obtain ⟨hmod, hlow, hhigh⟩ := paddedLength_bounds len
  exact ⟨paddedLength_eq len, hmod, hlow, hhigh, fun q hq => (paddedLength_le_iff len hq).mpr, paddedLength_of_mod_le,
    paddedLength_of_le_mod, rfl⟩

/-! ### The length trailer (R81, R88) -/

theorem toNat_bitLengthTrailer (msgLen : Nat) : (bitLengthTrailer msgLen).toNat = 8 * msgLen % 2 ^ 64 :=
  BitVec.toNat_ofNat ..

/-- Settles O12: below `2^61` the product is below `2^64`, so nothing is reduced. -/
theorem trailerExactBelowLimit : Obligations.TrailerExactBelowLimit := by
  refine ⟨fun msgLen h => ?_, by decide, by decide⟩
  rw [toNat_bitLengthTrailer, Nat.mod_eq_of_lt (by omega)]

/-- Settles O13: multiplying by 8 moves the bits of `M` up by three. -/
theorem trailerIsShiftedLength : Obligations.TrailerIsShiftedLength := by
  intro msgLen
  simp only [← BitVec.toNat_inj, toNat_append_eq, BitVec.extractLsb'_toNat, toNat_bitLengthTrailer,
    Nat.shiftRight_eq_div_pow, BitVec.toNat_ofNat]
  omega

/-! ### PAD's rule (R82, R83) -/

section
variable {len : Nat} {s : State} (msgLen : Nat)

theorem rulePad_of_fits (h : paddedLength len ≤ s.cfg.padcap) :
    rulePad len msgLen s =
      .ok ((s.setStaging (padded len msgLen s.sb)).setPlen (BitVec.ofNat 32 (paddedLength len))) 0x00000000#32 := by
  rw [rulePad, if_neg h.not_gt]

theorem rulePad_past_sb (h : s.cfg.padcap < paddedLength len) : rulePad len msgLen s = .raise .padRange := by
  rw [rulePad, if_pos h]

theorem exec_pad_of_fits (he : s.err = false) (h : paddedLength len ≤ s.cfg.padcap) :
    exec (.pad len msgLen) s = .next { s with
      sb := padded len msgLen s.sb
      plen := BitVec.ofNat 32 (paddedLength len)
      result := 0x00000000#32 } :=
  exec_of_rule_ok (i := .pad len msgLen) he (rulePad_of_fits msgLen h)

theorem exec_pad_past_sb (he : s.err = false) (h : s.cfg.padcap < paddedLength len) :
    exec (.pad len msgLen) s = .next { s with status := 0x00000501#32, result := 0x00000000#32 } :=
  exec_of_rule_raise (i := .pad len msgLen) he (rulePad_past_sb msgLen h)

end

/-! ### The bytes PAD writes (R84, R85) -/

section
variable {len : Nat} (msgLen : Nat) (m : Memory)

theorem read_padded_outside {a : Nat} (h : a < len ∨ paddedLength len ≤ a) : (padded len msgLen m).read a = m.read a := by
  rw [read_padded, if_pos h]

theorem read_padded_terminator (len : Nat) : (padded len msgLen m).read len = 0x80#8 := by
  have hb := paddedLength_bounds len
  rw [read_padded, if_neg (by omega), if_pos rfl]

theorem read_padded_zero {a : Nat} (hlen : len < a) (ha : a < paddedLength len - 8) :
    (padded len msgLen m).read a = 0x00#8 := by
  rw [read_padded, if_neg (by omega), if_neg hlen.ne', if_pos ha]

/-- The trailer stands big-endian in the last eight bytes of the padded region (R81). -/
theorem read_padded_trailer (len : Nat) {i : Nat} (hi : i < 8) :
    (padded len msgLen m).read (paddedLength len - 8 + i) = (bitLengthTrailer msgLen).extractLsb' (56 - 8 * i) 8 := by
  have hb := paddedLength_bounds len
  rw [read_padded, if_neg (by omega), if_neg (by omega), if_neg (by omega), Nat.add_sub_cancel_left,
    Memory.getD_be64 _ hi]

end

/-- Settles O9, the words by the decoder's checks, the effect by PAD's rule and the layout region by region. -/
theorem padWritesPaddingAndPlen : Obligations.PadWritesPaddingAndPlen := by
  refine ⟨fun w hw => ?_, ?_⟩
  · have hop : (splitFields w).op = 0x03 := congrArg BitVec.toNat hw
    rw [decode_of_unflagged (by omega) (by omega), decodeOpcode_pad hop, toNat_extractLsb'_64_64]
    rfl
  · rintro s len msgLen _ _ he rfl rfl
    exact ⟨fun hfits => ⟨padded len msgLen s.sb, exec_pad_of_fits msgLen he hfits,
        fun _ ha => read_padded_outside msgLen s.sb (.inl ha), read_padded_terminator msgLen s.sb len,
        fun _ => read_padded_zero msgLen s.sb, fun _ => read_padded_trailer msgLen s.sb len,
        fun _ ha => read_padded_outside msgLen s.sb (.inr ha)⟩,
      exec_pad_past_sb msgLen he⟩

/-! ### When PAD faults (R82) -/

theorem chunk_mod_of_legal {cfg : Config} (h : cfg.legal = true) : cfg.chunk % 64 = 0 := by
  simp only [Config.legal, Config.legalChunk, Bool.and_eq_true, decide_eq_true_eq] at h
  obtain ⟨⟨⟨-, hmod⟩, -⟩, -⟩ := h
  exact hmod

/-- PADCAP is a multiple of 64, so the padding fits SB up to `L = C + 55` (R82). -/
theorem paddedLength_le_padcap_iff {cfg : Config} (h : cfg.legal = true) (len : Nat) :
    paddedLength len ≤ cfg.padcap ↔ len ≤ cfg.chunk + 55 := by
  have hmod := chunk_mod_of_legal h
  rw [paddedLength_le_iff len (by rw [Config.padcap]; omega), Config.padcap]
  omega

/-- Settles O10: by `paddedLength_le_padcap_iff` the two ways PAD ends are told apart by `C + 55`. -/
theorem padFaultsExactlyAboveRange : Obligations.PadFaultsExactlyAboveRange := by
  intro s len msgLen hl he
  have hfits := paddedLength_le_padcap_iff hl len
  have hpast : s.cfg.padcap < paddedLength len ↔ s.cfg.chunk + 55 < len := by omega
  exact ⟨hpast, fun h => exec_pad_past_sb msgLen he (hpast.mpr h),
    fun h => ⟨_, exec_pad_of_fits msgLen he (hfits.mpr h), rfl, rfl⟩, fun h => hfits.mpr (by omega)⟩

end Sys2Proof.Machine
end

section
/-! PROOFS. Compression (42_compression.md): the words of COMPRESS and COMPRESS.P, the schedule, the rounds and the round
functions of one block, and which blocks the two commands chain. -/

namespace Sys2Proof

/-! ### The words of COMPRESS and COMPRESS.P (R56, R60, R61) -/

/-- A word is the encoding of a command exactly when it has the command's fields. -/
theorem eq_encode_iff {i : Instr} (hi : i.wellFormed = true) (w : CommandWord) :
    w = encode i ↔ splitFields w = encodeFields i where
  mp h := by rw [h, encode, splitFields_joinFields (encodeFields_inRange hi)]
  mpr h := by rw [encode, ← h, joinFields_splitFields]

theorem encode_compressP : encode .compressP = 0x104#128 := by decide

/-- Bits 127:64 of a word are zero exactly when OPB and OPC are (R53). -/
theorem extractLsb'_64_64_eq_zero_iff (w : CommandWord) :
    w.extractLsb' 64 64 = 0 ↔ (splitFields w).b = 0 ∧ (splitFields w).x = 0 := by
  rw [← BitVec.toNat_inj, toNat_extractLsb'_64_64, BitVec.ofNat_eq_ofNat, BitVec.toNat_ofNat, Nat.zero_mod]
  omega

/-- Without P the opcode map takes OPA as COMPRESS's length (R99). -/
theorem decodeOpcode_compress {f : Fields} (hop : f.op = 0x04) (hp : f.p = 0) :
    decodeOpcode f = if f.b = 0 ∧ f.x = 0 then .ok (.compress f.a) else .error .reservedField := by
  simp [decodeOpcode, hop, hp, whenUnusedZero]

/-- With P no field is an operand (R99). -/
theorem decodeOpcode_compressP {f : Fields} (hop : f.op = 0x04) (hp : f.p = 1) (hrsv : f.rsv = 0) :
    decodeOpcode f = if f = encodeFields .compressP then .ok .compressP else .error .reservedField := by
  obtain ⟨op, p, rsv, a, b, x⟩ := f
  subst hop hp hrsv
  simp [decodeOpcode, whenUnusedZero, encodeFields, and_assoc]

/-- A word of opcode 4: P and RSV zero for COMPRESS, P alone for COMPRESS.P (R60, R61). -/
theorem decode_of_compress_opcode {w : CommandWord} (hop : (splitFields w).op = 0x04) :
    decode w =
      if w.extractLsb' 8 24 = 0 ∧ w.extractLsb' 64 64 = 0 then .ok (.compress (splitFields w).a)
      else if w = 0x104#128 then .ok .compressP else .error .reservedField := by
  have hp : (splitFields w).p < 2 := (w.extractLsb' 8 1).isLt
  simp only [extractLsb'_8_24_eq_zero_iff, extractLsb'_64_64_eq_zero_iff, ← encode_compressP,
    eq_encode_iff (i := .compressP) rfl]
  rw [decode]
  by_cases hrsv : (splitFields w).rsv = 0
  · rw [decodeFields_of_legal (by omega) hrsv fun _ => hop]
    obtain hp0 | hp1 : (splitFields w).p = 0 ∨ (splitFields w).p = 1 := by omega
    · have hne : splitFields w ≠ encodeFields .compressP := fun h => by rw [h] at hp0; cases hp0
      rw [decodeOpcode_compress hop hp0, if_neg hne]
      simp only [hp0, hrsv, true_and]
    · have hflag : ¬((splitFields w).p = 0 ∧ (splitFields w).rsv = 0) := by omega
      rw [decodeOpcode_compressP hop hp1 hrsv, if_neg (mt And.left hflag)]
  · have hne : splitFields w ≠ encodeFields .compressP := fun h => hrsv (by rw [h]; rfl)
    rw [decodeFields_of_reserved (by omega) (.inl hrsv), if_neg (by omega), if_neg hne]

end Sys2Proof

namespace Sys2Proof.Machine

/-! ### The message schedule (R91, R92) -/

theorem length_blockWords (m : Memory) (n : Nat) : (blockWords m n).length = 16 := by
  rw [blockWords, List.length_map, List.length_range]

/-- Word `t` of SB's block `n`, big-endian as SB's words are (R91). -/
theorem getD_blockWords (s : State) (n : Nat) {t : Nat} (ht : t < 16) :
    (blockWords s.sb n).getD t 0 = s.sbWord (16 * n + t) := by
  rw [List.getD_eq_getElem _ _ (by rwa [length_blockWords])]
  simp only [blockWords, List.getElem_map, List.getElem_range, State.sbWord]

/-- A schedule starts with its block's words (R91). -/
theorem getD_schedule_of_lt {block : List Word} {t : Nat} (ht : t < block.length) :
    (schedule block).getD t 0 = block.getD t 0 := getD_extendSchedule 64 block ht

theorem length_schedule {block : List Word} (hb : block.length = 16) : (schedule block).length = 80 := by
  rw [schedule, length_extendSchedule, hb]

/-- Every word that extending a schedule adds follows the recurrence over the words of the longer schedule (R92). -/
theorem getD_extendSchedule_added {n t : Nat} {ws : List Word} (h16 : 16 ≤ ws.length) (hlow : ws.length ≤ t)
    (hhigh : t < ws.length + n) :
    (extendSchedule n ws).getD t 0 =
      rotl ((extendSchedule n ws).getD (t - 3) 0 ^^^ (extendSchedule n ws).getD (t - 8) 0 ^^^
        (extendSchedule n ws).getD (t - 14) 0 ^^^ (extendSchedule n ws).getD (t - 16) 0) 1 := by
  induction n generalizing ws with
  | zero => omega
  | succ n ih =>
    have hlen : (ws ++ [nextScheduleWord ws]).length = ws.length + 1 := List.length_append
    obtain rfl | hlt := Nat.eq_or_lt_of_le hlow
    · have hkept (k : Nat) (hk : 0 < k) : (extendSchedule (n + 1) ws).getD (ws.length - k) 0 = ws.getD (ws.length - k) 0 :=
        getD_extendSchedule (n + 1) ws (by omega)
      rw [hkept 3 (by decide), hkept 8 (by decide), hkept 14 (by decide), hkept 16 (by decide), extendSchedule,
        getD_extendSchedule n _ (by omega), List.getD_append_right _ _ _ _ (le_refl _), Nat.sub_self]
      rfl
    · exact ih (by omega) (by omega) (by omega)

/-- Settles O17: the block's own words are kept, and the 64 words added follow the recurrence. -/
theorem scheduleFollowsRecurrence : Obligations.ScheduleFollowsRecurrence := by
  refine ⟨fun s n t ht => ?_, fun block hb => ⟨length_schedule hb, fun t ht => getD_schedule_of_lt (hb ▸ ht),
    fun t hlow hhigh => getD_extendSchedule_added hb.ge (hb ▸ hlow) (by omega)⟩⟩
  rw [getD_schedule_of_lt (by rwa [length_blockWords]), getD_blockWords s n ht]

/-! ### The eighty rounds (R97, R98) -/

theorem runRounds_append (t : Nat) (xs ys : List Word) (v : Working) :
    runRounds t (xs ++ ys) v = runRounds (t + xs.length) ys (runRounds t xs v) := by
  induction xs generalizing t v with
  | nil => rfl
  | cons x xs ih => rw [List.cons_append, runRounds, ih, runRounds, List.length_cons, Nat.add_right_comm, Nat.add_assoc]

/-- The working variables before round `t` of a block's compression from `h` (R97). -/
def workingBefore (h : Chain) (block : List Word) (t : Nat) : Working :=
  runRounds 0 ((schedule block).take t) (seedWorking h)

theorem workingBefore_zero (h : Chain) (block : List Word) : workingBefore h block 0 = seedWorking h := rfl

theorem workingBefore_succ (h : Chain) {block : List Word} {t : Nat} (ht : t < (schedule block).length) :
    workingBefore h block (t + 1) = roundStep t ((schedule block).getD t 0) (workingBefore h block t) := by
  rw [workingBefore, List.take_succ_eq_append_getElem ht, runRounds_append, List.length_take_of_le ht.le, Nat.zero_add,
    List.getD_eq_getElem _ _ ht]
  rfl

/-- The last round's working variables are what is added back into the chaining registers (R98). -/
theorem compressBlock_eq_foldBack (h : Chain) (block : List Word) :
    compressBlock h block = foldBack h (workingBefore h block (schedule block).length) := by
  rw [workingBefore, List.take_length, compressBlock]

/-- Settles O18, `workingBefore` being the sequence of working variables. -/
theorem compressBlockRunsEightyRounds : Obligations.CompressBlockRunsEightyRounds := by
  intro h block hb
  have hlen := length_schedule hb
  refine ⟨workingBefore h block, workingBefore_zero h block, fun t ht => workingBefore_succ h (hlen ▸ ht), ?_⟩
  rw [compressBlock_eq_foldBack, hlen, foldBack]

/-! ### The round functions (R93 to R95) -/

theorem getLsbD_selectBits (b c d : Word) {i : Nat} (hi : i < 32) :
    (selectBits b c d).getLsbD i = if b.getLsbD i then c.getLsbD i else d.getLsbD i := by
  rw [selectBits, BitVec.getLsbD_or, BitVec.getLsbD_and, BitVec.getLsbD_and, BitVec.getLsbD_not]
  cases b.getLsbD i <;> simp [hi]

/-- The two halves of select share no bit, for one has the bits of `b` and the other those of its complement. -/
theorem and_selectBits_halves (b c d : Word) : (b &&& c) &&& (~~~b &&& d) = 0#32 := by
  ext i hi
  cases hb : b[i] <;> simp [hb]

theorem selectBits_eq_add (b c d : Word) : selectBits b c d = (b &&& c) + (~~~b &&& d) :=
  (BitVec.add_eq_or_of_and_eq_zero _ _ (and_selectBits_halves b c d)).symm

theorem selectBits_eq_xor (b c d : Word) : selectBits b c d = (b &&& c) ^^^ (~~~b &&& d) := by
  ext i hi
  cases hb : b[i] <;> simp [selectBits, hb]

theorem getLsbD_majorityBits (b c d : Word) (i : Nat) :
    (majorityBits b c d).getLsbD i =
      decide (2 ≤ (b.getLsbD i).toNat + (c.getLsbD i).toNat + (d.getLsbD i).toNat) := by
  simp only [majorityBits, BitVec.getLsbD_or, BitVec.getLsbD_and]
  cases b.getLsbD i <;> cases c.getLsbD i <;> cases d.getLsbD i <;> rfl

theorem majorityBits_eq_and_or (b c d : Word) : majorityBits b c d = (b &&& c) ||| (d &&& (b ||| c)) := by
  rw [majorityBits, BitVec.or_assoc, BitVec.and_or_distrib_left, BitVec.and_comm d b, BitVec.and_comm d c]

section
variable {t : Nat}

theorem roundFunction_select (h : t < 20) : roundFunction t = selectBits := by
  funext b c d; rw [roundFunction, if_pos h]

theorem roundFunction_parity (h20 : 20 ≤ t) (h40 : t < 40) : roundFunction t = parityBits := by
  funext b c d; rw [roundFunction, if_neg h20.not_gt, if_pos h40]

theorem roundFunction_majority (h40 : 40 ≤ t) (h60 : t < 60) : roundFunction t = majorityBits := by
  funext b c d; rw [roundFunction, if_neg (by omega), if_neg h40.not_gt, if_pos h60]

theorem roundFunction_parity_last (h60 : 60 ≤ t) : roundFunction t = parityBits := by
  funext b c d; rw [roundFunction, if_neg (by omega), if_neg (by omega), if_neg h60.not_gt]

end

/-- Settles O19, range by range: the round's function, what it does to each bit, and the round's constant. -/
theorem roundFunctionsAndConstants : Obligations.RoundFunctionsAndConstants := by
  intro t b c d
  refine ⟨fun h20 => ?_, fun h20 h40 => ?_, fun h40 h60 => ?_, fun h60 _ => ?_⟩
  · rw [roundFunction_select h20]
    exact ⟨rfl, fun _ => getLsbD_selectBits b c d, selectBits_eq_xor b c d, selectBits_eq_add b c d, if_pos h20⟩
  · rw [roundFunction_parity h20 h40, roundConstant, if_neg h20.not_gt, if_pos h40]
    exact ⟨rfl, rfl⟩
  · rw [roundFunction_majority h40 h60, roundConstant, if_neg (by omega), if_neg h40.not_gt, if_pos h60]
    exact ⟨rfl, fun i _ => getLsbD_majorityBits b c d i, majorityBits_eq_and_or b c d, rfl⟩
  · rw [roundFunction_parity_last h60, roundConstant, if_neg (by omega), if_neg (by omega), if_neg h60.not_gt]
    exact ⟨rfl, rfl⟩

/-! ### COMPRESS and COMPRESS.P (R99, R100, R103) -/

section
variable {s : State} {len : Nat}

theorem ruleCompress_unaligned (h64 : len % 64 ≠ 0) : ruleCompress len s = .raise .lenAlign := if_pos h64

theorem ruleCompress_past_sb (h64 : len % 64 = 0) (hlen : s.cfg.padcap < len) : ruleCompress len s = .raise .lenRange := by
  rw [ruleCompress, if_neg (not_not.mpr h64), if_pos hlen]

/-- COMPRESS over `n` blocks that lie in SB (R100). -/
theorem exec_compress_blocks {n : Nat} (he : s.err = false) (hn : 64 * n ≤ s.cfg.padcap) :
    exec (.compress (64 * n)) s =
      .next { s with h := compressBlocks s.sb n s.h, result := 0x00000000#32 } := by
  rw [exec_compress he (Nat.mul_mod_right 64 n) hn, Nat.mul_div_cancel_left n (by decide)]
  rfl

/-- COMPRESS of no block (R102). -/
theorem exec_compress_zero (he : s.err = false) : exec (.compress 0) s = .next { s with result := 0x00000000#32 } :=
  exec_compress_blocks (n := 0) he (Nat.zero_le _)

/-- COMPRESS.P is COMPRESS of PLEN, ERR or not (R99). -/
theorem exec_compressP (s : State) : exec .compressP s = exec (.compress s.plen.toNat) s := rfl

/-- A PAD of a legal block that did not fault leaves the padded length in PLEN (R86). -/
theorem exec_pad_plen {t : State} {msgLen : Nat} (hl : s.cfg.legal = true) (he : s.err = false)
    (h : exec (.pad len msgLen) s = .next t) (ht : t.err = false) : t.plen.toNat = paddedLength len := by
  obtain hpast | hfits := Nat.lt_or_ge s.cfg.padcap (paddedLength len)
  · rw [exec_pad_past_sb msgLen he hpast] at h
    cases h
    exact absurd (faultStatus_err .padRange) (Bool.eq_false_iff.mp ht)
  · rw [exec_pad_of_fits msgLen he hfits] at h
    cases h
    exact toNat_paddedLength hl hfits

end

/-- Settles O16: a legal PLEN passes both checks of R103. -/
theorem compressPCompletesOnLegalPlen : Obligations.CompressPCompletesOnLegalPlen := by
  intro s he h64 hlen
  rw [exec_compressP, exec_compress he h64 hlen]
  rfl

/-- Settles O15: by `exec_compressP` every clause is about the value PLEN has. -/
theorem compressPTakesPlenAsLength : Obligations.CompressPTakesPlenAsLength := by
  refine ⟨exec_compressP, fun s he hplen => ?_, State.assertReset_plen, fun s t len msgLen hl he h ht => ?_⟩
  · have hzero : s.plen.toNat = 0 := congrArg BitVec.toNat hplen
    rw [exec_compressP, hzero, exec_compress_zero he]
  · have hplen := exec_pad_plen hl he h ht
    exact ⟨hplen, by rw [exec_compressP, hplen]⟩

/-- Settles O14, the words by the decoder's checks, one block more by `compressBlocks_succ`, the faults by R103's checks. -/
theorem compressChainsBlocks : Obligations.CompressChainsBlocks := by
  refine ⟨fun w hw => decode_of_compress_opcode (congrArg BitVec.toNat hw), fun s he => ⟨exec_compressP s,
    fun ⟨h64, hlen⟩ => ⟨_, compressPCompletesOnLegalPlen s he h64 hlen⟩, exec_compress_zero he, fun n hn => ?_,
    fun len h64 => ?_, fun len h64 hlen => ?_⟩⟩
  · have hprev : 64 * n ≤ s.cfg.padcap := le_trans (by omega) hn
    refine ⟨_, exec_compress_blocks he hprev, ?_⟩
    rw [exec_compress_blocks he hn, compressBlocks_succ]
    rfl
  · exact exec_of_rule_raise (i := .compress len) he (ruleCompress_unaligned h64)
  · exact exec_of_rule_raise (i := .compress len) he (ruleCompress_past_sb h64 hlen)

/-- Settles O21: the first COMPRESS passed R103's checks, and its chaining value depends on the bytes below `len` only. -/
theorem compressReadsOnlyItsBlocks : Obligations.CompressReadsOnlyItsBlocks := by
  intro s u t len hs hu hh _ hlen hsb h ht
  obtain ⟨v, r, hok, rfl⟩ := rule_ok_of_exec hs ht h
  obtain ⟨h64, -, rfl⟩ := ruleCompress_ok hok
  have hchain : compressBlocks u.sb (len / 64) u.h = compressBlocks s.sb (len / 64) s.h := by
    rw [hh, compressBlocks_congr u.h fun a ha => hsb a (by omega)]
  rw [exec_compress hu h64 hlen, hchain]
  rfl

/-! ### Blocks compressed one by one (R101) -/

/-- COMPRESS 64 over the bytes of block `n` of another SB compresses that block. -/
theorem compressBlocks_one_of_block {m m' : Memory} {n : Nat} (h : Chain)
    (hread : ∀ i < 64, m.read i = m'.read (64 * n + i)) : compressBlocks m 1 h = compressBlock h (blockWords m' n) := by
  have hblock : blockWords m 0 = blockWords m' n :=
    blockWords_congr fun i hi => by rw [Nat.mul_zero, Nat.zero_add, hread i hi]
  rw [compressBlocks_succ, compressBlocks_zero, hblock]

/-- Settles O22: by induction the H before the `n`-th command is the chaining value of the `n` blocks before it. -/
theorem separateBlocksEqualOneBatch : Obligations.SeparateBlocksEqualOneBatch := by
  intro s k sbs hs he hk hread h0 hstep
  have hchain : ∀ n ≤ k, hs n = compressBlocks s.sb n s.h := by
    intro n hn
    induction n with
    | zero => exact h0
    | succ n ih =>
      have hrun := exec_compress_blocks (s := { s with h := hs n, sb := sbs n }) (n := 1) he
        (by simp only [Config.padcap]; omega)
      have hnext : hs (n + 1) = compressBlocks (sbs n) 1 (hs n) :=
        congrArg State.h (Host.Outcome.next.inj ((hstep n hn).symm.trans hrun))
      rw [hnext, compressBlocks_one_of_block _ (hread n hn), ih (by omega), ← compressBlocks_succ]
  rw [exec_compress_blocks he hk, ← hchain k (le_refl k)]

/-! ### The worked example (R108) -/

/-- The padded block of "abc", its sixteen words (R108). -/
def abcWords : List Word := 0x61626380#32 :: List.replicate 14 0x00000000#32 ++ [0x00000018#32]

theorem compressBlock_abcWords :
    compressBlock Chain.iv abcWords = ⟨0xa9993e36#32, 0x4706816a#32, 0xba3e2571#32, 0x7850c26c#32, 0x9cd0d89d#32⟩ := by
  decide +kernel

/-- Settles O23: SB's words are `abcWords`, and their compression is computed. -/
theorem workedExampleAbcBlock : Obligations.WorkedExampleAbcBlock := by
  intro s he hh hfirst hzero hlast
  have hwords : blockWords s.sb 0 = abcWords := by
    change [s.sbWord 0, s.sbWord 1, s.sbWord 2, s.sbWord 3, s.sbWord 4, s.sbWord 5, s.sbWord 6, s.sbWord 7, s.sbWord 8,
      s.sbWord 9, s.sbWord 10, s.sbWord 11, s.sbWord 12, s.sbWord 13, s.sbWord 14, s.sbWord 15] = abcWords
    simp [hfirst, hzero, hlast, abcWords]
  have hiv : s.h = Chain.iv := hh
  refine ⟨by decide, ?_⟩
  rw [exec_compress_blocks (n := 1) he (Nat.le_add_left 64 _), compressBlocks_succ, compressBlocks_zero, hwords, hiv,
    compressBlock_abcWords]

end Sys2Proof.Machine
end

section
/-! PROOFS. Control and access (43_control_access.md): the words of NOP, INIT, RDREG, WRREG, RDSB and WRSB, what each of
them reads or writes, and its faults; and a sample word of every command. -/

namespace Sys2Proof

/-! ### Words with no operand (R109, R111) -/

/-- Where an opcode is used by one command only, and that command has no operand, the opcode has one word that decodes (R61). -/
theorem decode_of_sole_command {w : CommandWord} {i : Instr} (hi : i.wellFormed = true)
    (hop : (splitFields w).op = (encodeFields i).op) (hsole : ∀ j, (encodeFields j).op = (encodeFields i).op → j = i) :
    decode w = if w = encode i then .ok i else .error .reservedField := by
  split
  case isTrue hw => rw [hw, decodeOfEncode i hi]
  case isFalse hw =>
    obtain ⟨hlegal, -⟩ := encodeFields_legal i
    obtain ⟨hill, -⟩ | ⟨-, hd | ⟨j, -, -, hj⟩⟩ := decode_cases w
    · exact absurd (hop.trans_le hlegal) hill
    · exact hd
    · rw [← hj] at hop
      rw [hsole j hop] at hj
      exact absurd ((eq_encode_iff hi w).mpr hj.symm) hw

theorem encode_nop : encode .nop = 0x0#128 := by decide

theorem encode_init : encode .init = 0x1#128 := by decide

theorem eq_nop_of_op {j : Instr} (h : (encodeFields j).op = 0x00) : j = .nop := by
  cases j with
  | nop => rfl
  | _ => cases h

theorem eq_init_of_op {j : Instr} (h : (encodeFields j).op = 0x01) : j = .init := by
  cases j with
  | init => rfl
  | _ => cases h

/-! ### Words with unused operand fields (R60, R61) -/

theorem extractLsb'_96_32_eq_zero_iff (w : CommandWord) : w.extractLsb' 96 32 = 0 ↔ (splitFields w).x = 0 :=
  BitVec.toNat_inj.symm

theorem ofNat_splitFields_b (w : CommandWord) : BitVec.ofNat 32 (splitFields w).b = w.extractLsb' 64 32 :=
  (BitVec.ofNat_toNat 32 _).trans (BitVec.setWidth_eq _)

/-- A read command's words, its one operand being OPA: every other field is zero, or the word faults. -/
theorem decode_of_operand_a {w : CommandWord} {i : Instr} (hop : (splitFields w).op ≤ 0x08) (h4 : (splitFields w).op ≠ 0x04)
    (hmap : decodeOpcode (splitFields w) =
      whenUnusedZero ((splitFields w).b == 0 && (splitFields w).x == 0) i) :
    decode w = if w.extractLsb' 8 24 = 0 ∧ w.extractLsb' 64 64 = 0 then .ok i else .error .reservedField := by
  rw [decode_of_unflagged hop h4, hmap, ite_and]
  simp only [whenUnusedZero, Bool.and_eq_true, beq_iff_eq, extractLsb'_64_64_eq_zero_iff]

/-- A write command's words, its operands being OPA and OPB: RSV, P and OPC are zero, or the word faults. -/
theorem decode_of_operands_ab {w : CommandWord} {i : Instr} (hop : (splitFields w).op ≤ 0x08)
    (h4 : (splitFields w).op ≠ 0x04) (hmap : decodeOpcode (splitFields w) = whenUnusedZero ((splitFields w).x == 0) i) :
    decode w = if w.extractLsb' 8 24 = 0 ∧ w.extractLsb' 96 32 = 0 then .ok i else .error .reservedField := by
  rw [decode_of_unflagged hop h4, hmap, ite_and]
  simp only [whenUnusedZero, beq_iff_eq, extractLsb'_96_32_eq_zero_iff]

section
variable {f : Fields}

theorem decodeOpcode_rdreg (hop : f.op = 0x05) :
    decodeOpcode f = whenUnusedZero (f.b == 0 && f.x == 0) (.rdreg f.a) := by
  simp only [decodeOpcode, hop]

theorem decodeOpcode_wrreg (hop : f.op = 0x06) :
    decodeOpcode f = whenUnusedZero (f.x == 0) (.wrreg f.a (BitVec.ofNat 32 f.b)) := by
  simp only [decodeOpcode, hop]

theorem decodeOpcode_rdsb (hop : f.op = 0x07) :
    decodeOpcode f = whenUnusedZero (f.b == 0 && f.x == 0) (.rdsb f.a) := by
  simp only [decodeOpcode, hop]

theorem decodeOpcode_wrsb (hop : f.op = 0x08) :
    decodeOpcode f = whenUnusedZero (f.x == 0) (.wrsb f.a (BitVec.ofNat 32 f.b)) := by
  simp only [decodeOpcode, hop]

end

/-! ### A word of every command (R53, R56) -/

/-- Settles O31: ten closed words, each taken apart by the decoder. -/
theorem sampleWordsDecode : Obligations.SampleWordsDecode := by
  unfold Obligations.SampleWordsDecode
  decide

end Sys2Proof

namespace Sys2Proof.Machine

/-! ### NOP and INIT (R109, R111) -/

/-- NOP's result is zero whether its rule completes or is dropped, so ERR does not matter (R110). -/
theorem exec_nop (s : State) : exec .nop s = .next (s.setResult 0x00000000#32) := by
  cases he : s.err with
  | false => exact exec_of_rule_ok (i := .nop) he rfl
  | true => exact State.finish_dropped he _

/-- Settles O1: no other command has opcode 0, and `exec_nop` for both values of ERR. -/
theorem nopChangesNothing : Obligations.NopChangesNothing := by
  refine ⟨fun w hw => ?_, exec_nop⟩
  rw [decode_of_sole_command (i := .nop) rfl (congrArg BitVec.toNat hw) fun _ => eq_nop_of_op, encode_nop]

/-- Settles O2: no other command has opcode 1, and INIT's rule has no check. -/
theorem initSetsChainToIv : Obligations.InitSetsChainToIv := by
  refine ⟨fun w hw => ?_, fun s he => exec_of_rule_ok (i := .init) he rfl⟩
  rw [decode_of_sole_command (i := .init) rfl (congrArg BitVec.toNat hw) fun _ => eq_init_of_op, encode_init]

/-! ### The registers (R113, R115) -/

section
variable {r : Nat} {s : State}

theorem exec_rdreg {v : Word} (h : s.readRegister r = some v) : exec (.rdreg r) s = .next (s.setResult v) := by
  rw [exec_eq_finish, ruleOf, ruleRdreg, h]
  exact State.finish_read s v rfl

theorem ruleRdreg_unmapped (h : 8 < r) : ruleRdreg r s = .raise .regNum := by
  rw [ruleRdreg, (readRegister_eq_none_iff s r).mpr h]

theorem ruleWrreg_chain (v : Word) (h : r ≤ 4) :
    ruleWrreg r v s = .ok (s.setChain (s.h.set r v)) 0x00000000#32 := by
  rw [ruleWrreg, if_neg (by omega), if_neg h.not_gt]

theorem ruleWrreg_readOnly (v : Word) (h5 : 5 ≤ r) (h8 : r ≤ 8) : ruleWrreg r v s = .raise .regReadonly := by
  rw [ruleWrreg, if_neg h8.not_gt, if_pos (Nat.lt_of_succ_le h5)]

theorem ruleWrreg_unmapped (v : Word) (h : 8 < r) : ruleWrreg r v s = .raise .regNum := if_pos h

theorem exec_wrreg_chain (v : Word) (he : s.err = false) (h : r ≤ 4) :
    exec (.wrreg r v) s = .next { s with h := s.h.set r v, result := 0x00000000#32 } :=
  exec_of_rule_ok (i := .wrreg r v) he (ruleWrreg_chain v h)

end

/-- Settles O3: by `exec_rdreg` each of the nine numbers returns its entry of the register map, and no other number has one. -/
theorem rdregReturnsEachRegister : Obligations.RdregReturnsEachRegister := by
  refine ⟨fun w hw => ?_, fun s => ⟨exec_rdreg rfl, exec_rdreg rfl, exec_rdreg rfl, exec_rdreg rfl, exec_rdreg rfl,
    exec_rdreg rfl, exec_rdreg rfl, exec_rdreg rfl, exec_rdreg rfl, fun r hr he => ?_⟩⟩
  · have hop : (splitFields w).op = 0x05 := congrArg BitVec.toNat hw
    exact decode_of_operand_a (by omega) (by omega) (decodeOpcode_rdreg hop)
  · exact exec_of_rule_raise (i := .rdreg r) he (ruleRdreg_unmapped hr)

/-- Settles O4, the words by the decoder's checks and each register number by its case of WRREG's rule. -/
theorem wrregWritesOneChainRegister : Obligations.WrregWritesOneChainRegister := by
  refine ⟨fun w hw => ?_, fun s v he => ?_⟩
  · have hop : (splitFields w).op = 0x06 := congrArg BitVec.toNat hw
    rw [← ofNat_splitFields_b]
    exact decode_of_operands_ab (by omega) (by omega) (decodeOpcode_wrreg hop)
  · have hchain (r : Nat) := exec_wrreg_chain (r := r) v he
    exact ⟨hchain 0 (by decide), hchain 1 (by decide), hchain 2 (by decide), hchain 3 (by decide), hchain 4 (by decide),
      fun r h5 h8 => exec_of_rule_raise (i := .wrreg r v) he (ruleWrreg_readOnly v h5 h8),
      fun r h8 => exec_of_rule_raise (i := .wrreg r v) he (ruleWrreg_unmapped v h8)⟩

/-! ### The words of SB (R118, R119, R121) -/

section
variable {j : Nat} {s : State} (hj : (s.cfg.chunk + 64) / 4 ≤ j)
include hj

theorem not_wordInSb : ¬ s.cfg.wordInSb j = true := fun h => ((wordInSb_iff s.cfg j).mp h).not_ge hj

theorem ruleRdsb_past_sb : ruleRdsb j s = .raise .sbRange := if_neg (not_wordInSb hj)

theorem ruleWrsb_past_sb (v : Word) : ruleWrsb j v s = .raise .sbRange := if_neg (not_wordInSb hj)

end

/-- Settles O5: the word RDSB returns is the four bytes of `readWord`, joined. -/
theorem rdsbReturnsBigEndianWord : Obligations.RdsbReturnsBigEndianWord := by
  refine ⟨fun w hw => ?_, fun s j => ⟨exec_rdsb, fun hj he => ?_⟩⟩
  · have hop : (splitFields w).op = 0x07 := congrArg BitVec.toNat hw
    exact decode_of_operand_a (by omega) (by omega) (decodeOpcode_rdsb hop)
  · exact exec_of_rule_raise (i := .rdsb j) he (ruleRdsb_past_sb hj)

/-- Settles O6: WRSB leaves `writeWord`'s memory, whose four bytes are those of `be32 v`. -/
theorem wrsbWritesFourBytes : Obligations.WrsbWritesFourBytes := by
  refine ⟨fun w hw => ?_, fun s j v he => ⟨fun hj => ?_, fun hj => ?_⟩⟩
  · have hop : (splitFields w).op = 0x08 := congrArg BitVec.toNat hw
    rw [← ofNat_splitFields_b]
    exact decode_of_operands_ab (by omega) (by omega) (decodeOpcode_wrsb hop)
  · have hbyte {i : Nat} := Memory.read_writeWord s.sb (wordAddr j) v (i := i)
    exact ⟨s.sb.writeWord (wordAddr j) v, exec_wrsb v he hj, hbyte (i := 0) (by decide), hbyte (i := 1) (by decide),
      hbyte (i := 2) (by decide), hbyte (i := 3) (by decide), fun a ha => Memory.read_writeWord_outside s.sb v ha⟩
  · exact exec_of_rule_raise (i := .wrsb j v) he (ruleWrsb_past_sb hj v)

end Sys2Proof.Machine
end

section
/-! PROOFS. Host sequences (44_host_sequences.md): what a run of a list of host actions leads to, and the routines that read
and that write the block's registers and words. -/

namespace Sys2Proof.Machine
open Controller

/-! ### What a run keeps (R14) -/

/-- A step keeps the configuration, and the results received before it. -/
theorem step_frame {s t : State} (h : step s = .next t) : t.cfg = s.cfg ∧ ∃ out, t.results = s.results ++ out := by
  obtain ⟨-, ⟨-, rfl⟩ | ⟨w, rest, u, -, hu, rfl⟩ | ⟨d, rest, -, rfl⟩ | ⟨base, bytes, rest, -, hsrc⟩ |
    ⟨n, rest, -, rfl⟩⟩ := step_cases h
  · exact ⟨rfl, [], (List.append_nil _).symm⟩
  · obtain ⟨isRead, rule, hrun, hrule⟩ := runCommand_is_finish w
    have hhost := finish_sameHost (hrule _) (hrun _ ▸ hu)
    have hresults : u.results = s.results := hhost.results
    exact ⟨hhost.cfg, [u.result], by rw [State.receive_results, hresults]⟩
  · exact ⟨rfl, [], (List.append_nil _).symm⟩
  · obtain ⟨-, rfl⟩ | ⟨-, -, rfl⟩ := hsrc <;> exact ⟨rfl, [], (List.append_nil _).symm⟩
  · exact ⟨rfl, [], (List.append_nil _).symm⟩

/-- A step that leads to a next state is the first step of a run. -/
theorem exists_step_of_run {n : Nat} {s t : State} (h : core.run (n + 1) s = .next t) :
    ∃ u, step s = .next u ∧ core.run n u = .next t := by
  cases hs : step s with
  | next u => exact ⟨u, rfl, (run_of_next core hs).symm.trans h⟩
  | fault r => simp only [Host.Core.run, show core.step s = .fault r from hs, reduceCtorEq] at h
  | refused r => simp only [Host.Core.run, show core.step s = .refused r from hs, reduceCtorEq] at h

theorem run_frame {n : Nat} {s t : State} (h : core.run n s = .next t) : t.cfg = s.cfg ∧ ∃ out, t.results = s.results ++ out := by
  induction n generalizing s with
  | zero => cases h; exact ⟨rfl, [], (List.append_nil _).symm⟩
  | succ n ih =>
    obtain ⟨u, hstep, hrun⟩ := exists_step_of_run h
    obtain ⟨hcfg, out, hout⟩ := step_frame hstep
    obtain ⟨hcfg', out', hout'⟩ := ih hrun
    exact ⟨hcfg'.trans hcfg, out ++ out', by rw [hout', hout, List.append_assoc]⟩

/-! ### A step of the host's own (R41, R124) -/

section
variable {s : State} {rest : List HostAction} (hl : s.cfg.legal = true)
include hl

theorem step_setRoff {n : Nat} (hp : s.pending = .setRoff n :: rest) :
    step s = .next ((s.setPending rest).setRoff n) := by
  simp only [step, (refusal_eq_none_iff s.cfg).mpr hl, hp]

theorem step_srcWrite {base : Nat} {bytes : List Byte} (hp : s.pending = .srcWrite base bytes :: rest) :
    step s = (s.setPending rest).hostWriteSource base bytes := by
  simp only [step, (refusal_eq_none_iff s.cfg).mpr hl, hp]

/-- A host write of no byte only leaves the list (R128). -/
theorem step_srcWrite_nil {base : Nat} (hp : s.pending = .srcWrite base [] :: rest) : step s = .next (s.setPending rest) := by
  rw [step_srcWrite hl hp, State.hostWriteSource, if_pos rfl]

end

/-! ### Runs of a list of actions at the head of the host's list (R14) -/

/-- The host's actions `l` lead from `s` to `t`, whatever it has to do after them: the lists that `s` and `t` hold do not matter. -/
def Leads (l : List HostAction) (s t : State) : Prop :=
  ∀ rest, core.run l.length (s.setPending (l ++ rest)) = .next (t.setPending rest)

namespace Leads
variable {l l' : List HostAction} {s t u : State}

theorem refl (s : State) : Leads [] s s := fun _ => rfl

theorem trans (h : Leads l s t) (h' : Leads l' t u) : Leads (l ++ l') s u := fun rest => by
  rw [List.length_append, List.append_assoc, run_append core (h (l' ++ rest)), h' rest]

theorem of_step {a : HostAction} (h : ∀ rest, step (s.setPending (a :: rest)) = .next (t.setPending rest)) : Leads [a] s t :=
  fun rest => run_of_next core (h rest)

theorem cfg (h : Leads l s t) : t.cfg = s.cfg := (run_frame (h [])).1

theorem results (h : Leads l s t) : ∃ out, t.results = s.results ++ out := (run_frame (h [])).2

/-- The run of a host's whole list. -/
theorem run (h : Leads l s t) (hp : s.pending = l) : core.run s.pending.length s = .next (t.setPending []) := by
  subst hp
  have hrun := h []
  rwa [List.append_nil] at hrun

section
variable (hl : s.cfg.legal = true)
include hl

/-- A command that runs: its index advances and its result is received (R33, R55). -/
theorem command {i : Instr} (hi : i.wellFormed = true) (h : exec i s = .next t) :
    Leads [issueOf i] s (t.setPc (s.pc + 1)).receive := of_step fun rest => by
  have hhost := exec_sameHost h
  have hroff : t.roff = s.roff := hhost.roff
  have hresults : t.results = s.results := hhost.results
  rw [step_command (s := s.setPending (issueOf i :: rest)) hl rfl, runCommand_of_decode (decodeOfEncode i hi)]
  change State.afterCommand (exec i (s.setHost s.roff (s.pc + 1) rest s.results)) = _
  rw [exec_setHost _ _ _ _ h, ← hroff, ← hresults]
  rfl

theorem setRoff (n : Nat) : Leads [.setRoff n] s (s.setRoff n) := of_step fun rest =>
  step_setRoff (s := s.setPending (.setRoff n :: rest)) hl rfl

end
end Leads

/-- A host write inside SRC places its bytes (R41). -/
theorem exists_leads_srcWrite {s : State} {base : Nat} {bytes : List Byte} (hl : s.cfg.legal = true)
    (hfit : base + bytes.length ≤ s.cfg.srcLen) :
    ∃ m : Memory, Leads [.srcWrite base bytes] s (s.setSource m) ∧
      ∀ i < bytes.length, m.read (base + i) = bytes.getD i 0 := by
  by_cases hnil : bytes = []
  · subst hnil
    exact ⟨s.src, .of_step fun rest => step_srcWrite_nil (s := s.setPending (.srcWrite base [] :: rest)) hl rfl,
      fun _ hi => absurd hi (Nat.not_lt_zero _)⟩
  · refine ⟨s.src.writeBytes base bytes, .of_step fun rest => ?_, fun i hi => ?_⟩
    · rw [step_srcWrite (s := s.setPending (.srcWrite base bytes :: rest)) hl rfl, State.hostWriteSource, if_neg hnil]
      exact if_pos hfit
    · rw [Memory.read_writeBytes, if_pos (by omega), Nat.add_sub_cancel_left]
      rfl

/-! ### Lists of reads (R113, R119) -/

/-- The state after reads that returned `vs`. -/
def State.afterReads (vs : List Word) (s : State) : State :=
  { s with pc := s.pc + vs.length, result := vs.getLastD s.result, results := s.results ++ vs }

theorem State.afterReads_nil (s : State) : s.afterReads [] = s := by simp [State.afterReads]

theorem State.afterReads_cons (v : Word) (vs : List Word) (s : State) :
    (s.afterReads [v]).afterReads vs = s.afterReads (v :: vs) := by
  simp only [State.afterReads, List.length_nil, List.length_cons, List.getLastD_cons, List.getLastD_nil,
    List.append_cons s.results v vs, Nat.zero_add,
    Nat.add_assoc, Nat.add_comm 1]

/-- What a read returns does not depend on the reads before it. -/
theorem exec_afterReads {i : Instr} {s : State} {v : Word} (h : exec i s = .next (s.setResult v)) (vs : List Word) :
    exec i (s.afterReads vs) = .next ((s.afterReads vs).setResult v) :=
  exec_setResult _ (exec_setHost s.roff (s.pc + vs.length) s.pending (s.results ++ vs) h)

/-- Commands that read without an effect, `f` of them being what each returns. -/
theorem leads_reads {is : List Instr} {s : State} {f : Instr → Word} (hl : s.cfg.legal = true)
    (h : ∀ i ∈ is, i.wellFormed = true ∧ exec i s = .next (s.setResult (f i))) :
    Leads (issueAll is) s (s.afterReads (is.map f)) := by
  induction is generalizing s with
  | nil => rw [List.map_nil, State.afterReads_nil]; exact Leads.refl s
  | cons i is ih =>
    obtain ⟨⟨hwf, hexec⟩, hrest⟩ := List.forall_mem_cons.mp h
    have hfirst : Leads [issueOf i] s (s.afterReads [f i]) := .command hl hwf hexec
    have hothers := ih (s := s.afterReads [f i]) hl fun j hj => ⟨(hrest j hj).1, exec_afterReads (hrest j hj).2 _⟩
    rw [State.afterReads_cons] at hothers
    exact hfirst.trans hothers

/-- What RDREG and RDSB return of a state (R113, R119). -/
def valueRead (s : State) : Instr → Word
  | .rdreg r => (s.readRegister r).getD 0
  | .rdsb j => s.sbWord j
  | _ => 0

/-- RDREG of a register that exists is such a read. -/
theorem rdreg_reads {r : Nat} (hr : r ≤ 8) (s : State) :
    (Instr.rdreg r).wellFormed = true ∧ exec (.rdreg r) s = .next (s.setResult (valueRead s (.rdreg r))) := by
  have hsome : s.readRegister r ≠ none := mt (readRegister_eq_none_iff s r).mp hr.not_gt
  obtain ⟨v, hv⟩ := Option.ne_none_iff_exists'.mp hsome
  exact ⟨(fits32_iff r).mpr (by omega), by rw [exec_rdreg hv, valueRead, hv, Option.getD_some]⟩

/-- A word index inside SB fits its operand field. -/
theorem fits32_of_word {cfg : Config} {j : Nat} (hl : cfg.legal = true) (hj : j < (cfg.chunk + 64) / 4) : fits32 j = true := by
  have hcap := padcap_lt_of_legal hl
  rw [Config.padcap] at hcap
  exact (fits32_iff j).mpr (by omega)

/-- RDSB of a word of SB is such a read. -/
theorem rdsb_reads {s : State} {j : Nat} (hl : s.cfg.legal = true) (hj : j < (s.cfg.chunk + 64) / 4) :
    (Instr.rdsb j).wellFormed = true ∧ exec (.rdsb j) s = .next (s.setResult (valueRead s (.rdsb j))) :=
  ⟨fits32_of_word hl hj, exec_rdsb hj⟩

theorem rddigest_reads (s : State) :
    ∀ i ∈ Pseudo.rddigest.expand, i.wellFormed = true ∧ exec i s = .next (s.setResult (valueRead s i)) := by
  simp only [Pseudo.expand, List.forall_mem_cons, List.not_mem_nil, false_implies, implies_true, and_true]
  exact ⟨rdreg_reads (by decide) s, rdreg_reads (by decide) s, rdreg_reads (by decide) s, rdreg_reads (by decide) s,
    rdreg_reads (by decide) s⟩

/-- RDDIGEST returns the digest words in order (R67, R130). -/
theorem leads_rddigest {s : State} (hl : s.cfg.legal = true) :
    Leads (issueAll Pseudo.rddigest.expand) s (s.afterReads s.h.words) := leads_reads hl (rddigest_reads s)

/-- Settles O47: the run is that of five reads, and the raw digest is the digest words' bytes. -/
theorem rddigestReturnsChain : Obligations.RddigestReturnsChain := by
  intro s hl hp
  have hrun := (leads_rddigest hl).run hp
  rw [hp] at hrun
  refine ⟨hrun, ?_, ?_⟩
  · simp only [rawDigest, Chain.words, List.flatMap_cons, List.flatMap_nil, List.append_nil, List.append_assoc]
  · simp only [rawDigest, Chain.words, List.flatMap_cons, List.flatMap_nil, List.length_append, Memory.length_be32,
      List.length_nil]

end Sys2Proof.Machine
end

section
/-! PROOFS. Host sequences (44_host_sequences.md): `update` stages the bytes it takes, and the one-shot host's batched update
issues the same commands. -/

namespace Sys2Proof.Machine
open Controller

/-! ### Positions in chunks (R124) -/

section
variable {chunk a k : Nat}

/-- Bytes that do not fill the chunk leave its number as it was. -/
theorem add_div_mod_of_lt (h : a % chunk + k < chunk) : (a + k) / chunk = a / chunk ∧ (a + k) % chunk = a % chunk + k := by
  have ha := Nat.mod_add_div a chunk
  exact (Nat.div_mod_unique (by omega)).mpr ⟨by omega, h⟩

/-- Bytes that fill the chunk start the next one. -/
theorem add_div_mod_of_eq (hc : 0 < chunk) (h : a % chunk + k = chunk) :
    (a + k) / chunk = a / chunk + 1 ∧ (a + k) % chunk = 0 := by
  have ha := Nat.mod_add_div a chunk
  exact (Nat.div_mod_unique hc).mpr ⟨by rw [Nat.mul_add]; omega, hc⟩

end

/-! ### The passes of `update` (R128) -/

section
variable {chunk base roff n k : Nat}

/-- The last pass packs all the bytes that are left. -/
theorem fragment_of_lt (h : roff % chunk + n < chunk) : fragment chunk roff n = n := Nat.min_eq_right (by omega)

/-- Every other pass fills the chunk. -/
theorem fragment_of_eq (h : roff % chunk + k = chunk) (n : Nat) : fragment chunk roff (k + n) = k := by
  rw [fragment]
  omega

theorem fragment_pos (hc : 0 < chunk) (hn : 0 < n) : 0 < fragment chunk roff n := by
  have := Nat.mod_lt roff hc
  exact Nat.lt_min.mpr ⟨by omega, hn⟩

theorem updateLoop_zero (chunk fuel base roff : Nat) : updateLoop chunk fuel base roff 0 = [] := by
  cases fuel <;> rfl

/-- One pass per byte is fuel enough, and more changes nothing. -/
theorem updateLoop_eq_updateLoop (hc : 0 < chunk) {fuel fuel' : Nat} (h : n ≤ fuel) (h' : n ≤ fuel') :
    updateLoop chunk fuel base roff n = updateLoop chunk fuel' base roff n := by
  induction fuel generalizing fuel' base roff n with
  | zero => rw [Nat.le_zero.mp h, updateLoop_zero, updateLoop_zero]
  | succ fuel ih =>
    obtain rfl | hn := Nat.eq_zero_or_pos n
    · rw [updateLoop_zero, updateLoop_zero]
    obtain ⟨fuel', rfl⟩ := Nat.exists_eq_add_one.mpr (Nat.lt_of_lt_of_le hn h')
    have hk := fragment_pos (roff := roff) hc hn
    have hrest := ih (base := base + fragment chunk roff n) (roff := roff + fragment chunk roff n)
      (n := n - fragment chunk roff n) (fuel' := fuel') (by omega) (by omega)
    simp only [updateLoop, hrest]

theorem updateRoutine_zero (chunk base roff : Nat) : updateRoutine chunk base 0 roff = [] := rfl

/-- The pass of bytes that do not fill the chunk is the last. -/
theorem updateRoutine_of_lt (hn : 0 < n) (h : roff % chunk + n < chunk) :
    updateRoutine chunk base n roff = [issueOf (.pack base n (roff % chunk)), .setRoff (roff + n)] := by
  obtain ⟨m, rfl⟩ := Nat.exists_eq_add_one.mpr hn
  have hmod := (add_div_mod_of_lt h).2
  simp only [updateRoutine, updateLoop, if_neg hn.ne', fragment_of_lt h, Nat.sub_self, updateLoop_zero]
  rw [if_neg (by omega)]
  rfl

/-- A pass that fills the chunk compresses it, and the update goes on at the next chunk. -/
theorem updateRoutine_of_eq (hc : 0 < chunk) (h : roff % chunk + k = chunk) :
    updateRoutine chunk base (k + n) roff =
      [issueOf (.pack base k (roff % chunk)), .setRoff (roff + k), issueOf (.compress chunk)] ++
        updateRoutine chunk (base + k) n (roff + k) := by
  have hk : 0 < k := by have := Nat.mod_lt roff hc; omega
  obtain ⟨m, hm⟩ := Nat.exists_eq_add_one.mpr (Nat.add_pos_left hk n)
  have hmod := (add_div_mod_of_eq hc h).2
  rw [updateRoutine, hm, updateLoop, ← hm, if_neg (by omega), fragment_of_eq h]
  simp only [hmod, if_pos, Nat.add_sub_cancel_left]
  rw [updateLoop_eq_updateLoop hc (fuel' := n) (by omega) (le_refl n)]
  rfl

/-- Induction over the passes of an update: no byte left, bytes that do not fill the chunk, or a chunk filled and the rest. -/
theorem updateRoutine_induction {motive : Nat → Nat → Nat → Prop} (hc : 0 < chunk)
    (zero : ∀ base roff, motive base 0 roff)
    (part : ∀ base n roff, 0 < n → roff % chunk + n < chunk → motive base n roff)
    (whole : ∀ base k n roff, roff % chunk + k = chunk → motive (base + k) n (roff + k) → motive base (k + n) roff)
    (base n roff : Nat) : motive base n roff := by
  induction n using Nat.strong_induction_on generalizing base roff with
  | _ n ih =>
    have hoff := Nat.mod_lt roff hc
    obtain rfl | hn := Nat.eq_zero_or_pos n
    · exact zero base roff
    obtain hlt | hge := Nat.lt_or_ge (roff % chunk + n) chunk
    · exact part base n roff hn hlt
    · have hwhole := whole base (chunk - roff % chunk) (n - (chunk - roff % chunk)) roff (by omega)
        (ih _ (by omega) _ _)
      rwa [Nat.add_sub_cancel' (by omega)] at hwhole

end

/-- Settles O49: `updateRoutine_zero`, and `step_srcWrite_nil` for the write before it. -/
theorem zeroLengthUpdateIssuesNothing : Obligations.ZeroLengthUpdateIssuesNothing :=
  ⟨updateRoutine_zero, fun _ _ _ hl hp => step_srcWrite_nil hl hp⟩

/-! ### The batched update (R134) -/

theorem commandsOf_append (l l' : List HostAction) : commandsOf (l ++ l') = commandsOf l ++ commandsOf l' :=
  List.filterMap_append

/-- PACK and COMPRESS of each of `q` whole chunks (R134). -/
def wholeChunks (chunk base q : Nat) : List HostAction :=
  (List.range q).flatMap fun i => [issueOf (.pack (base + i * chunk) chunk 0), issueOf (.compress chunk)]

theorem wholeChunks_succ (chunk base q : Nat) :
    wholeChunks chunk base (q + 1) =
      [issueOf (.pack base chunk 0), issueOf (.compress chunk)] ++ wholeChunks chunk (base + chunk) q := by
  simp only [wholeChunks, List.range_succ_eq_map, List.flatMap_cons, List.flatMap_map, Nat.zero_mul, Nat.add_zero,
    Nat.succ_eq_add_one, Nat.add_one_mul, Nat.add_assoc, Nat.add_comm chunk]

/-- From the start of a chunk, the streaming update issues the commands of the whole chunks and then of the bytes that are left. -/
theorem commandsOf_updateRoutine {chunk : Nat} (hc : 0 < chunk) (base n roff : Nat) (hoff : roff % chunk = 0) :
    commandsOf (updateRoutine chunk base n roff) =
      commandsOf (wholeChunks chunk base (n / chunk)) ++
        commandsOf (updateRoutine chunk (base + n / chunk * chunk) (n % chunk) (roff + n / chunk * chunk)) := by
  induction base, n, roff using updateRoutine_induction hc with
  | zero base roff => rw [Nat.zero_div, Nat.zero_mod, updateRoutine_zero, updateRoutine_zero]; rfl
  | part base n roff hn hlt =>
    have hn : n < chunk := by omega
    rw [Nat.div_eq_of_lt hn, Nat.mod_eq_of_lt hn, Nat.zero_mul]
    rfl
  | whole base k n roff hk ih =>
    obtain rfl : k = chunk := by omega
    rw [updateRoutine_of_eq hc hk, commandsOf_append, ih (by rw [Nat.add_mod_right, hoff]), Nat.add_div_left n hc,
      Nat.add_mod_left, wholeChunks_succ, commandsOf_append, hoff, Nat.succ_mul, Nat.add_assoc, Nat.add_assoc,
      Nat.add_comm k, ← List.append_assoc]
    rfl

/-- Settles O55: the update of ROFF between the two parts of the batched update is no command. -/
theorem batchedUpdateIssuesSameCommands : Obligations.BatchedUpdateIssuesSameCommands := by
  intro chunk base n hc
  rw [commandsOf_updateRoutine hc base n 0 (Nat.zero_mod chunk), batchedUpdate, commandsOf_append, commandsOf_append,
    Nat.zero_add]
  exact congrArg (· ++ _) (List.append_nil _)

/-! ### What `update` stages (R129) -/

/-- The block and its host while a message is taken: no fault, and `msg` staged. -/
structure Taking (s : State) (msg : List Byte) : Prop where
  legal : s.cfg.legal = true
  noError : s.err = false
  staged : Staged s msg

theorem chunk_pos_of_legal {cfg : Config} (h : cfg.legal = true) : 0 < cfg.chunk := by
  simp only [Config.legal, Config.legalChunk, Bool.and_eq_true, decide_eq_true_eq] at h
  obtain ⟨⟨⟨hpos, -⟩, -⟩, -⟩ := h
  exact hpos

theorem srcLen_le_of_legal {cfg : Config} (h : cfg.legal = true) : cfg.srcLen ≤ 2 ^ 32 := by
  simp only [Config.legal, Config.legalSource, Bool.and_eq_true, decide_eq_true_eq] at h
  exact h.2

theorem chunk_lt_of_legal {cfg : Config} (h : cfg.legal = true) : cfg.chunk < 2 ^ 32 :=
  Nat.lt_of_le_of_lt (Nat.le_add_right _ 64) (padcap_lt_of_legal h)

/-- The bytes of `q` chunks are whole blocks. -/
theorem blocks_mul_of_legal {cfg : Config} (h : cfg.legal = true) (q : Nat) : 64 * (cfg.chunk / 64 * q) = cfg.chunk * q := by
  rw [← Nat.mul_assoc, Nat.mul_div_cancel' (Nat.dvd_of_mod_eq_zero (chunk_mod_of_legal h))]

theorem wellFormed_pack {cfg : Config} {src count dst : Nat} (hl : cfg.legal = true) (hcount : 0 < count)
    (hsrc : src + count ≤ cfg.srcLen) (hdst : dst + count ≤ cfg.padcap) : (Instr.pack src count dst).wellFormed = true := by
  have hcap := padcap_lt_of_legal hl
  have hlen := srcLen_le_of_legal hl
  simp only [Instr.wellFormed, Bool.and_eq_true, fits32_iff]
  omega

theorem wellFormed_pad {cfg : Config} {len msgLen : Nat} (hl : cfg.legal = true) (hfit : paddedLength len ≤ cfg.padcap)
    (hmsg : msgLen < 2 ^ 64) : (Instr.pad len msgLen).wellFormed = true := by
  have hcap := padcap_lt_of_legal hl
  obtain ⟨-, hlow, -⟩ := paddedLength_bounds len
  simp only [Instr.wellFormed, Bool.and_eq_true, fits32_iff, fits64, decide_eq_true_eq]
  omega

theorem wellFormed_compress_chunk {cfg : Config} (hl : cfg.legal = true) : (Instr.compress cfg.chunk).wellFormed = true :=
  (fits32_iff _).mpr (chunk_lt_of_legal hl)

/-- At the start of a chunk no byte of SB is staged. -/
theorem staged_of_mod_eq_zero {s : State} {msg : List Byte} (hmod : msg.length % s.cfg.chunk = 0) (hroff : s.roff = msg.length)
    (hh : s.h = hashBlocks msg (s.cfg.chunk / 64 * (msg.length / s.cfg.chunk)) Chain.iv) : Staged s msg where
  roff := hroff
  chain := hh
  bytes i hi := by rw [hmod] at hi; exact absurd hi (Nat.not_lt_zero i)

section
variable {s : State} {msg more : List Byte} {base : Nat}

/-- After a PACK behind the staged bytes SB holds what follows the whole chunks in the longer message. -/
theorem read_packed_staged (h : Taking s msg) (hsrc : ∀ i < more.length, s.src.read (base + i) = more.getD i 0) {i : Nat}
    (hi : i < msg.length % s.cfg.chunk + more.length) :
    (packed base more.length (msg.length % s.cfg.chunk) s).read i =
      (msg ++ more).getD (s.cfg.chunk * (msg.length / s.cfg.chunk) + i) 0 := by
  have hlen := Nat.mod_add_div msg.length s.cfg.chunk
  obtain hlow | hhigh := Nat.lt_or_ge i (msg.length % s.cfg.chunk)
  · rw [read_packed_outside (.inl hlow), h.staged.bytes i hlow, List.getD_append _ _ _ _ (by omega)]
  · obtain ⟨j, rfl⟩ := Nat.exists_eq_add_of_le hhigh
    rw [read_packed_add (by omega), hsrc j (by omega), List.getD_append_right _ _ _ _ (by omega)]
    congr 1
    omega

/-- The chaining value after the whole chunks of a message is that of a longer one. -/
theorem hashBlocks_append {n : Nat} (hn : 64 * n ≤ msg.length) (more : List Byte) (c : Chain) :
    hashBlocks (msg ++ more) n c = hashBlocks msg n c :=
  hashBlocks_congr c fun i hi => List.getD_append _ _ _ _ (by omega)

/-- A pass's PACK and its update of ROFF. -/
theorem exists_leads_pack (h : Taking s msg) (hmore : 0 < more.length) (hfit : base + more.length ≤ s.cfg.srcLen)
    (hfill : msg.length % s.cfg.chunk + more.length ≤ s.cfg.chunk) :
    ∃ t, Leads [issueOf (.pack base more.length (msg.length % s.cfg.chunk)), .setRoff (msg.length + more.length)] s t ∧
      t.cfg = s.cfg ∧ t.err = false ∧ t.h = s.h ∧ t.src = s.src ∧ t.roff = msg.length + more.length ∧
      t.sb = packed base more.length (msg.length % s.cfg.chunk) s := by
  have hcap : msg.length % s.cfg.chunk + more.length ≤ s.cfg.padcap := hfill.trans (Nat.le_add_right _ 64)
  have hpack := Leads.command h.legal (wellFormed_pack h.legal hmore hfit hcap)
    (exec_of_rule_ok (i := .pack ..) h.noError (rulePack_of_fits hmore hfit hcap))
  exact ⟨_, hpack.trans (.setRoff (by exact h.legal) _), rfl, h.noError, rfl, rfl, rfl, rfl⟩

/-- The last pass, whose bytes do not fill the chunk. -/
theorem exists_leads_part (h : Taking s msg) (hmore : 0 < more.length) (hfit : base + more.length ≤ s.cfg.srcLen)
    (hsrc : ∀ i < more.length, s.src.read (base + i) = more.getD i 0)
    (hlt : msg.length % s.cfg.chunk + more.length < s.cfg.chunk) :
    ∃ t, Leads (updateRoutine s.cfg.chunk base more.length msg.length) s t ∧ Taking t (msg ++ more) := by
  obtain ⟨t, hlead, hcfg, herr, hh, -, hroff, hsb⟩ := exists_leads_pack h hmore hfit hlt.le
  obtain ⟨hdiv, hmod⟩ := add_div_mod_of_lt hlt
  have hlen := Nat.mod_add_div msg.length s.cfg.chunk
  rw [updateRoutine_of_lt hmore hlt]
  refine ⟨t, hlead, hcfg ▸ h.legal, herr, by rw [hroff, List.length_append], ?_, fun i hi => ?_⟩
  · rw [hh, h.staged.chain, hcfg, List.length_append, hdiv, hashBlocks_append]
    rw [blocks_mul_of_legal h.legal]
    omega
  · rw [hcfg, List.length_append, hmod] at hi
    rw [hsb, read_packed_staged h hsrc hi, hcfg, List.length_append, hdiv]

/-- COMPRESS of a chunk that has been filled goes on by its blocks. -/
theorem compressBlocks_packed (h : Taking s msg) (hsrc : ∀ i < more.length, s.src.read (base + i) = more.getD i 0)
    (heq : msg.length % s.cfg.chunk + more.length = s.cfg.chunk) :
    compressBlocks (packed base more.length (msg.length % s.cfg.chunk) s) (s.cfg.chunk / 64) s.h =
      hashBlocks (msg ++ more) (s.cfg.chunk / 64 * (msg.length / s.cfg.chunk + 1)) Chain.iv := by
  have hlen := Nat.mod_add_div msg.length s.cfg.chunk
  have hblocks := blocks_mul_of_legal h.legal
  have hchunk := hblocks 1
  rw [h.staged.chain, ← hashBlocks_append (more := more), compressBlocks_message, Nat.mul_add_one]
  · intro i hi
    rw [read_packed_staged h hsrc (by omega), hblocks]
  · rw [hblocks]
    omega

/-- A pass that fills the chunk. -/
theorem exists_leads_whole (h : Taking s msg) (hfit : base + more.length ≤ s.cfg.srcLen)
    (hsrc : ∀ i < more.length, s.src.read (base + i) = more.getD i 0)
    (heq : msg.length % s.cfg.chunk + more.length = s.cfg.chunk) :
    ∃ t, Leads [issueOf (.pack base more.length (msg.length % s.cfg.chunk)), .setRoff (msg.length + more.length),
        issueOf (.compress s.cfg.chunk)] s t ∧
      Taking t (msg ++ more) ∧ t.src = s.src := by
  have hc := chunk_pos_of_legal h.legal
  have hmore : 0 < more.length := by have := Nat.mod_lt msg.length hc; omega
  obtain ⟨t, hlead, hcfg, herr, hh, hsrct, hroff, hsb⟩ := exists_leads_pack h hmore hfit heq.le
  obtain ⟨hdiv, hmod⟩ := add_div_mod_of_eq hc heq
  rw [← List.length_append] at hroff hdiv hmod
  have hl : t.cfg.legal = true := hcfg ▸ h.legal
  have hcompress := exec_compress (len := s.cfg.chunk) herr (chunk_mod_of_legal h.legal) (hcfg ▸ Nat.le_add_right _ 64)
  rw [hsb, hh, compressBlocks_packed h hsrc heq, ← hdiv] at hcompress
  refine ⟨_, hlead.trans (.command hl (wellFormed_compress_chunk h.legal) hcompress),
    ⟨hl, herr, staged_of_mod_eq_zero ?_ hroff ?_⟩, hsrct⟩
  · exact hcfg ▸ hmod
  · exact hcfg ▸ rfl

end

/-- `update` of bytes that stand in SRC, pass by pass (R128). -/
theorem exists_leads_updateRoutine {chunk : Nat} (hc : 0 < chunk) (base n roff : Nat) {s : State} {msg more : List Byte}
    (h : Taking s msg) (hchunk : s.cfg.chunk = chunk) (hroff : msg.length = roff) (hn : more.length = n)
    (hfit : base + n ≤ s.cfg.srcLen) (hsrc : ∀ i < n, s.src.read (base + i) = more.getD i 0) :
    ∃ t, Leads (updateRoutine chunk base n roff) s t ∧ Taking t (msg ++ more) := by
  induction base, n, roff using updateRoutine_induction hc generalizing s msg more with
  | zero base roff =>
    obtain rfl := List.length_eq_zero_iff.mp hn
    exact ⟨s, .refl s, by rwa [List.append_nil]⟩
  | part base n roff hpos hlt =>
    subst hchunk hroff hn
    exact exists_leads_part h hpos hfit hsrc hlt
  | whole base k n roff hk ih =>
    subst hchunk hroff
    obtain ⟨frag, rest, rfl, rfl⟩ : ∃ frag rest, more = frag ++ rest ∧ frag.length = k :=
      ⟨more.take k, more.drop k, (List.take_append_drop k more).symm, List.length_take_of_le (by omega)⟩
    have hrest : rest.length = n := by rw [List.length_append] at hn; omega
    obtain ⟨t, hpass, ht, hsame⟩ := exists_leads_whole h (base := base) (by omega)
      (fun i hi => by rw [hsrc i (by omega), List.getD_append _ _ _ _ hi]) hk
    have hcfg := hpass.cfg
    obtain ⟨u, hlead, hu⟩ := ih ht (hcfg ▸ rfl) List.length_append hrest (by rw [hcfg]; omega) fun i hi => by
      rw [hsame, Nat.add_assoc, hsrc _ (by omega), List.getD_append_right _ _ _ _ (Nat.le_add_right ..),
        Nat.add_sub_cancel_left]
    exact ⟨u, by rw [updateRoutine_of_eq hc hk]; exact hpass.trans hlead, by rwa [← List.append_assoc]⟩

/-- `update` of a list of bytes, which the host places in SRC first (R128). -/
theorem exists_leads_updateBytes {s : State} {msg : List Byte} (h : Taking s msg) {base : Nat} {more : List Byte}
    (hfit : base + more.length ≤ s.cfg.srcLen) :
    ∃ t, Leads (updateBytes s.cfg.chunk base msg.length more) s t ∧ Taking t (msg ++ more) := by
  obtain ⟨m, hwrite, hread⟩ := exists_leads_srcWrite h.legal hfit
  have hplaced : Taking (s.setSource m) msg := ⟨h.legal, h.noError, h.staged.roff, h.staged.chain, h.staged.bytes⟩
  obtain ⟨t, hlead, ht⟩ := exists_leads_updateRoutine (chunk_pos_of_legal h.legal) base more.length msg.length hplaced rfl rfl rfl
    hfit hread
  exact ⟨t, hwrite.trans hlead, ht⟩

/-- Settles O48: `exists_leads_updateBytes`, by induction over the passes of the update. -/
theorem updateStagesMessage : Obligations.UpdateStagesMessage := by
  intro s msg more base hinv herr hstaged hfit hp
  obtain ⟨t, hlead, ht⟩ := exists_leads_updateBytes ⟨hinv.legal, herr, hstaged⟩ hfit
  rw [← hstaged.roff] at hlead
  exact ⟨t.setPending [], hlead.run hp, rfl, ht.noError, hlead.cfg, ht.staged.roff, ht.staged.chain, ht.staged.bytes⟩

end Sys2Proof.Machine
end

section
/-! PROOFS. Host sequences (44_host_sequences.md): `finalize` and the one-shot digest return the digest of the message. -/

namespace Sys2Proof.Machine
open Controller

/-! ### The padded message (R80, R81) -/

theorem getD_paddedMessage (msg : List Byte) (i : Nat) :
    (paddedMessage msg).getD i 0 =
      if i < msg.length then msg.getD i 0
      else if i = msg.length then 0x80#8
      else if i < paddedLength msg.length - 8 then 0x00#8
      else (be64 (bitLengthTrailer msg.length)).getD (i - (paddedLength msg.length - 8)) 0 := by
  obtain ⟨-, hlow, -⟩ := paddedLength_bounds msg.length
  have hterm : (msg ++ [0x80#8]).length = msg.length + 1 := List.length_append
  have hzeros : (msg ++ [0x80#8] ++ List.replicate (paddedLength msg.length - msg.length - 9) 0x00#8).length =
      paddedLength msg.length - 8 := by
    rw [List.length_append, hterm, List.length_replicate]
    omega
  rw [paddedMessage]
  split_ifs with hmsg heq hzero
  · rw [List.getD_append _ _ _ _ (by omega), List.getD_append _ _ _ _ (by omega), List.getD_append _ _ _ _ hmsg]
  · rw [List.getD_append _ _ _ _ (by omega), List.getD_append _ _ _ _ (by omega),
      List.getD_append_right _ _ _ _ (by omega), heq, Nat.sub_self, List.getD_cons_zero]
  · rw [List.getD_append _ _ _ _ (by omega), List.getD_append_right _ _ _ _ (by omega), List.getD_replicate]
    omega
  · rw [List.getD_append_right _ _ _ _ (by omega), hzeros]

/-- The padding stands behind the last partial chunk, whatever the chunk size. -/
theorem paddedLength_eq_chunks_add {cfg : Config} (hl : cfg.legal = true) (len : Nat) :
    paddedLength len = cfg.chunk * (len / cfg.chunk) + paddedLength (len % cfg.chunk) := by
  have hlen := Nat.div_add_mod len cfg.chunk
  have hblocks := blocks_mul_of_legal hl (len / cfg.chunk)
  rw [paddedLength_eq, paddedLength_eq]
  omega

/-- After a PAD behind the staged bytes SB holds what follows the whole chunks in the padded message. -/
theorem read_padded_staged {s : State} {msg : List Byte} (h : Taking s msg) {i : Nat}
    (hi : i < paddedLength (msg.length % s.cfg.chunk)) :
    (padded (msg.length % s.cfg.chunk) msg.length s.sb).read i =
      (paddedMessage msg).getD (s.cfg.chunk * (msg.length / s.cfg.chunk) + i) 0 := by
  have hlen := Nat.div_add_mod msg.length s.cfg.chunk
  have hpad := paddedLength_eq_chunks_add h.legal msg.length
  obtain ⟨-, hlow, -⟩ := paddedLength_bounds (msg.length % s.cfg.chunk)
  rw [read_padded, getD_paddedMessage, hpad]
  obtain hstaged | hpadding := Nat.lt_or_ge i (msg.length % s.cfg.chunk)
  · rw [if_pos (.inl hstaged), if_pos (by omega), h.staged.bytes i hstaged]
  · rw [if_neg (by omega), if_neg (show ¬ s.cfg.chunk * (msg.length / s.cfg.chunk) + i < msg.length by omega)]
    refine if_congr (by omega) rfl (if_congr (by omega) rfl ?_)
    congr 1
    omega

/-- The final COMPRESS goes on from the whole chunks to the end of the padded message. -/
theorem compressBlocks_padded {s : State} {msg : List Byte} (h : Taking s msg) :
    compressBlocks (padded (msg.length % s.cfg.chunk) msg.length s.sb) (paddedLength (msg.length % s.cfg.chunk) / 64) s.h =
      digestOf msg := by
  have hlen := Nat.div_add_mod msg.length s.cfg.chunk
  have hblocks := blocks_mul_of_legal h.legal (msg.length / s.cfg.chunk)
  have hpad := paddedLength_eq_chunks_add h.legal msg.length
  obtain ⟨hmod, -, -⟩ := paddedLength_bounds (msg.length % s.cfg.chunk)
  have hwhole : hashBlocks msg (s.cfg.chunk / 64 * (msg.length / s.cfg.chunk)) Chain.iv =
      hashBlocks (paddedMessage msg) (s.cfg.chunk / 64 * (msg.length / s.cfg.chunk)) Chain.iv :=
    hashBlocks_congr _ fun i hi => by rw [getD_paddedMessage, if_pos (by omega)]
  rw [h.staged.chain, hwhole, compressBlocks_message, digestOf]
  · congr 1
    omega
  · intro i hi
    rw [hblocks, read_padded_staged h (by omega)]

/-! ### `reset` and `finalize` (R127, R131) -/

/-- No byte taken: ROFF is 0 and H the IV (R127). -/
theorem staged_nil {s : State} (hroff : s.roff = 0) (hh : s.h = Chain.iv) : Staged s [] :=
  staged_of_mod_eq_zero (Nat.zero_mod _) hroff (by rw [hh, List.length_nil, Nat.zero_div, Nat.mul_zero]; rfl)

/-- COMPRESS.P where PLEN is `len` (R99, R100). -/
theorem exec_compressP_of_plen {s : State} {len : Nat} (hplen : s.plen.toNat = len) (he : s.err = false) (h64 : len % 64 = 0)
    (hlen : len ≤ s.cfg.padcap) :
    exec .compressP s = .next ((s.setChain (compressBlocks s.sb (len / 64) s.h)).setResult 0x00000000#32) := by
  rw [exec_compressP, hplen, exec_compress he h64 hlen]

section
variable {s : State} (hl : s.cfg.legal = true) (he : s.err = false)
include hl he

theorem exists_leads_reset :
    ∃ t, Leads resetRoutine s t ∧ t.err = false ∧ t.roff = 0 ∧ t.h = Chain.iv ∧ t.results = s.results ++ [0x00000000#32] := by
  have hinit := Leads.command hl (i := .init) rfl (exec_of_rule_ok (i := .init) he rfl)
  exact ⟨_, hinit.trans (.setRoff (by exact hl) 0), he, rfl, rfl, rfl⟩

/-- PAD then COMPRESS.P, the padding fitting SB (R67, R99). -/
theorem exists_leads_final {len msgLen : Nat} (hlen : len ≤ s.cfg.chunk + 55) (hmsg : msgLen < 2 ^ 64) :
    ∃ t, Leads (issueAll (Pseudo.final len msgLen).expand) s t ∧ t.err = false ∧
      t.h = compressBlocks (padded len msgLen s.sb) (paddedLength len / 64) s.h ∧
      t.results = s.results ++ [0x00000000#32, 0x00000000#32] := by
  have hfit := (paddedLength_le_padcap_iff hl len).mpr hlen
  have hplen := toNat_paddedLength hl hfit
  have hpad := Leads.command hl (wellFormed_pad hl hfit hmsg) (exec_pad_of_fits msgLen he hfit)
  obtain ⟨h64, -, -⟩ := paddedLength_bounds len
  refine ⟨_, hpad.trans (.command (by exact hl) rfl (exec_compressP_of_plen (by exact hplen) he h64 hfit)), he, rfl, ?_⟩
  exact List.append_assoc ..

end

/-- `finalize` returns the digest of the bytes taken, and resets (R131). -/
theorem exists_leads_finalize {s : State} {msg : List Byte} (h : Taking s msg) (hmsg : msg.length < 2 ^ 64) :
    ∃ t, Leads (finalizeRoutine s.cfg.chunk msg.length) s t ∧ t.err = false ∧ t.roff = 0 ∧ t.h = Chain.iv ∧
      t.results = s.results ++ ([0x00000000#32, 0x00000000#32] ++ (digestOf msg).words ++ [0x00000000#32]) := by
  have hoff := Nat.mod_lt msg.length (chunk_pos_of_legal h.legal)
  obtain ⟨t, hfinal, herr, hh, hresults⟩ := exists_leads_final h.legal h.noError (len := msg.length % s.cfg.chunk) (by omega) hmsg
  rw [compressBlocks_padded h] at hh
  have hl : t.cfg.legal = true := hfinal.cfg ▸ h.legal
  have hread := leads_rddigest hl
  obtain ⟨u, hreset, herr', hroff, hh', hresults'⟩ := exists_leads_reset (s := t.afterReads t.h.words) hl herr
  refine ⟨u, (hfinal.trans hread).trans hreset, herr', hroff, hh', ?_⟩
  have hreads : (t.afterReads t.h.words).results = t.results ++ t.h.words := rfl
  rw [hresults', hreads, hresults, hh, List.append_assoc, List.append_assoc, List.append_assoc]

/-- Settles O50: of the results of `exists_leads_finalize`, the third to the seventh are the digest's words. -/
theorem finalizeReturnsDigest : Obligations.FinalizeReturnsDigest := by
  intro s msg hinv herr hstaged hmsg hp
  obtain ⟨t, hlead, herr', hroff, hh, hresults⟩ := exists_leads_finalize ⟨hinv.legal, herr, hstaged⟩ hmsg
  rw [← hstaged.roff] at hlead
  exact ⟨t.setPending [], _, hlead.run hp, rfl, herr', hresults, rfl, hroff, hh⟩

/-! ### The one-shot digest (R133) -/

/-- Settles O51: `reset` stages no byte, `update` the bytes, and `finalize` returns their digest. -/
theorem digestRoutineReturnsDigest : Obligations.DigestRoutineReturnsDigest := by
  intro s base bytes hl herr hfit hp
  have hlen := srcLen_le_of_legal hl
  obtain ⟨t, hreset, herrt, hroff, hh, -⟩ := exists_leads_reset hl herr
  have hcfg := hreset.cfg
  obtain ⟨u, hupdate, hu⟩ := exists_leads_updateBytes ⟨hcfg ▸ hl, herrt, staged_nil hroff hh⟩ (hcfg ▸ hfit)
  rw [List.nil_append] at hu
  obtain ⟨v, hfinalize, herrv, hroffv, hhv, hresults⟩ := exists_leads_finalize hu (by omega)
  have hcfgu := hupdate.cfg.trans hcfg
  obtain ⟨before, hbefore⟩ := (hreset.trans hupdate).results
  rw [hcfg] at hupdate
  rw [hcfgu] at hfinalize
  refine ⟨v.setPending [], before ++ [0x00000000#32, 0x00000000#32], ((hreset.trans hupdate).trans hfinalize).run hp, rfl,
    herrv, hroffv, hhv, ?_⟩
  rw [State.setPending_results, hresults, hbefore]
  simp only [List.append_assoc]

end Sys2Proof.Machine
end

section
/-! PROOFS. Host sequences (44_host_sequences.md): the snapshot that `getState` makes, and what `setState` restores of it. -/

namespace Sys2Proof.Machine
open Controller

/-! ### `getState` (R135, R136) -/

/-- The record of a block and its host (R135). -/
def recordOf (s : State) : Snapshot where
  roff := s.roff
  chunk := BitVec.ofNat 32 s.cfg.chunk
  padcap := BitVec.ofNat 32 s.cfg.padcap
  h := s.h
  sb := (List.range (stagedWords s.cfg.chunk s.roff)).map s.sbWord

/-- The results of `getState`'s commands: the record's words in order (R136). -/
def recordWords (s : State) : List Word :=
  [(recordOf s).chunk, (recordOf s).padcap] ++ s.h.words ++ (recordOf s).sb

theorem length_recordOf (s : State) : (recordOf s).sb.length = stagedWords s.cfg.chunk s.roff := by
  rw [recordOf, List.length_map, List.length_range]

theorem getD_recordOf {s : State} {j : Nat} (hj : j < stagedWords s.cfg.chunk s.roff) :
    (recordOf s).sb.getD j 0 = s.sbWord j := by
  rw [List.getD_eq_getElem _ _ (by rwa [length_recordOf])]
  simp only [recordOf, List.getElem_map, List.getElem_range]

theorem snapshotOf_recordWords (s : State) : snapshotOf s.roff (recordWords s) = some (recordOf s) := rfl

/-- The words that hold the staged bytes lie in SB. -/
theorem stagedWords_le {chunk : Nat} (hc : 0 < chunk) (roff : Nat) : stagedWords chunk roff ≤ (chunk + 64) / 4 := by
  have hoff := Nat.mod_lt roff hc
  rw [stagedWords]
  omega

theorem issueAll_append (is js : List Instr) : issueAll (is ++ js) = issueAll is ++ issueAll js := List.map_append

/-- `getState` only reads. -/
theorem leads_getState {s : State} (hl : s.cfg.legal = true) :
    Leads (getStateRoutine s.cfg.chunk s.roff) s (s.afterReads (recordWords s)) := by
  have hwords := stagedWords_le (chunk_pos_of_legal hl) s.roff
  have hreads : ∀ i ∈ [.rdreg regChunk, .rdreg regPadcap] ++ Pseudo.rddigest.expand ++
      (List.range (stagedWords s.cfg.chunk s.roff)).map Instr.rdsb,
      i.wellFormed = true ∧ exec i s = .next (s.setResult (valueRead s i)) := by
    simp only [List.forall_mem_append, List.forall_mem_map, List.forall_mem_cons, List.mem_range]
    exact ⟨⟨⟨rdreg_reads (by decide) s, rdreg_reads (by decide) s, nofun⟩, rddigest_reads s⟩,
      fun j hj => rdsb_reads hl (by omega)⟩
  have hlead := leads_reads hl hreads
  rwa [issueAll_append, issueAll_append, List.map_append, List.map_append, List.map_map] at hlead

/-! ### `setState` (R137, R138) -/

/-- Settles O54: the check of R138 is the routine's first. -/
theorem mismatchIssuesNoCommand : Obligations.MismatchIssuesNoCommand := fun _ _ h => if_pos h

section
variable {s : State} (hl : s.cfg.legal = true) (he : s.err = false)
include hl he

/-- WRSTATE writes the five chaining registers (R67). -/
theorem exists_leads_wrstate (c : Chain) :
    ∃ t, Leads (issueAll (Pseudo.wrstate c).expand) s t ∧ t.err = false ∧ t.h = c := by
  have h0 := Leads.command hl (i := .wrreg 0 c.h0) rfl (exec_wrreg_chain _ he (by decide))
  have h1 := h0.trans (.command (i := .wrreg 1 c.h1) (by exact hl) rfl (exec_wrreg_chain _ he (by decide)))
  have h2 := h1.trans (.command (i := .wrreg 2 c.h2) (by exact hl) rfl (exec_wrreg_chain _ he (by decide)))
  have h3 := h2.trans (.command (i := .wrreg 3 c.h3) (by exact hl) rfl (exec_wrreg_chain _ he (by decide)))
  have h4 := h3.trans (.command (i := .wrreg 4 c.h4) (by exact hl) rfl (exec_wrreg_chain _ he (by decide)))
  exact ⟨_, h4, he, rfl⟩

/-- WRSBs of the first `n` words of SB. -/
theorem exists_leads_wrsb (f : Nat → Word) {n : Nat} (hn : n ≤ (s.cfg.chunk + 64) / 4) :
    ∃ t, Leads (issueAll ((List.range n).map fun j => .wrsb j (f j))) s t ∧ t.err = false ∧ t.h = s.h ∧
      ∀ j < n, t.sbWord j = f j := by
  induction n with
  | zero => exact ⟨s, .refl s, he, rfl, fun j hj => absurd hj (Nat.not_lt_zero j)⟩
  | succ n ih =>
    obtain ⟨t, hlead, herr, hh, hwords⟩ := ih (by omega)
    have hcfg := hlead.cfg
    have hwrite := Leads.command (i := .wrsb n (f n)) (hcfg ▸ hl) (fits32_of_word hl hn) (exec_wrsb (f n) herr (hcfg ▸ hn))
    rw [List.range_succ, List.map_append, issueAll_append]
    refine ⟨_, hlead.trans hwrite, herr, hh, fun j hj => (readWord_writeWord_wordAddr t.sb n j (f n)).trans ?_⟩
    split
    case isTrue hjn => rw [hjn]
    case isFalse hjn => exact hwords j (by omega)

end

/-- Restoring a record of the block's own configuration (R137). -/
theorem exists_leads_setState {s : State} {x : Snapshot} (hl : s.cfg.legal = true) (he : s.err = false)
    (hchunk : x.chunk.toNat = s.cfg.chunk) (hpadcap : x.padcap.toNat = s.cfg.padcap)
    (hsb : x.sb.length ≤ (s.cfg.chunk + 64) / 4) :
    ∃ routine t, setStateRoutine s.cfg x = .ok routine ∧ Leads routine s t ∧ t.err = false ∧ t.h = x.h ∧ t.roff = x.roff ∧
      ∀ j < x.sb.length, t.sbWord j = x.sb.getD j 0 := by
  obtain ⟨t, hwrstate, herr, hh⟩ := exists_leads_wrstate hl he x.h
  have hcfg := hwrstate.cfg
  obtain ⟨u, hwrsb, herr', hh', hwords⟩ := exists_leads_wrsb (hcfg ▸ hl) herr (fun j => x.sb.getD j 0) (hcfg ▸ hsb)
  have hroff := Leads.setRoff (s := u) (by rw [hwrsb.cfg, hcfg]; exact hl) x.roff
  exact ⟨_, _, if_neg (by omega), (hwrstate.trans hwrsb).trans hroff, herr', hh'.trans hh, rfl, hwords⟩

/-! ### A snapshot restored (R137, R139) -/

/-- Bytes of equal words are equal. -/
theorem read_eq_of_sbWord_eq {s t : State} {i : Nat} (h : t.sbWord (i / 4) = s.sbWord (i / 4)) : t.sb.read i = s.sb.read i := by
  have hread (u : State) := Memory.extract_readWord u.sb (wordAddr (i / 4)) (Nat.mod_lt i (by decide : 0 < 4))
  have haddr : wordAddr (i / 4) + i % 4 = i := Nat.div_add_mod i 4
  rw [← haddr, ← hread s, ← hread t]
  exact congrArg _ h

/-- What is staged is ROFF, H and the words that hold the staged bytes. -/
theorem Staged.of_words {s t : State} {msg : List Byte} (h : Staged s msg) (hcfg : t.cfg = s.cfg) (hroff : t.roff = s.roff)
    (hh : t.h = s.h) (hwords : ∀ j < stagedWords s.cfg.chunk s.roff, t.sbWord j = s.sbWord j) : Staged t msg where
  roff := hroff.trans h.roff
  chain := by rw [hh, hcfg, h.chain]
  bytes i hi := by
    rw [hcfg] at hi ⊢
    rw [← h.bytes i hi]
    exact read_eq_of_sbWord_eq (hwords _ (by rw [stagedWords, h.roff]; omega))

/-- Settles O53: `getState` only reads, and `setState` writes back what `Staged.of_words` asks for. -/
theorem snapshotRestoresStaged : Obligations.SnapshotRestoresStaged := by
  intro e u msg hinv _ hstaged hinvu herru hcfg hp
  have hcap := padcap_lt_of_legal hinv.legal
  have hchunk := chunk_lt_of_legal hinv.legal
  have hlength := length_recordOf e
  have hwords := stagedWords_le (chunk_pos_of_legal hinv.legal) e.roff
  obtain ⟨routine, v, hroutine, hlead, herrv, hh, hroff, hsb⟩ := exists_leads_setState (x := recordOf e) hinvu.legal herru
    (by rw [hcfg]; exact Nat.mod_eq_of_lt hchunk) (by rw [hcfg]; exact Nat.mod_eq_of_lt hcap) (by rw [hlength, hcfg]; exact hwords)
  have hcfgv := hlead.cfg.trans hcfg
  have hrestored : Staged v msg := hstaged.of_words hcfgv hroff hh fun j hj => by
    rw [hsb j (hlength ▸ hj), getD_recordOf hj]
  exact ⟨_, _, _, routine, (leads_getState hinv.legal).run hp, rfl, rfl, rfl, rfl, rfl, rfl, snapshotOf_recordWords e, hroutine,
    fun hpu => ⟨v.setPending [], hpu ▸ hlead.run hpu, herrv, hlead.cfg, hrestored.roff, hrestored.chain, hrestored.bytes⟩⟩

end Sys2Proof.Machine
end

section
/-! PROOFS. Host sequences (44_host_sequences.md): the one-shot digest keeps the host's duties (R140, R164). What a list of actions must
be for that is told from the list alone (`KeepsDuties`); that no command of it faults is told from the end of its run. -/

namespace Sys2Proof.Machine
open Controller

/-! ### Duties told from the host's list (R140) -/

/-- How many SB bytes a command compresses where PLEN is `plen` (R99, R100). -/
def compressedLength (plen : Nat) : Instr → Nat
  | .compress len => len
  | .compressP => plen
  | _ => 0

theorem compressedLengthOf_eq (s : State) (i : Instr) : compressedLengthOf s i = compressedLength s.plen.toNat i := by
  cases i <;> rfl

/-- PLEN after a command that has not faulted (R25, R86). -/
def plenAfter (plen : Nat) : Instr → Nat
  | .pad len _ => paddedLength len
  | _ => plen

/-- If no command of the list faults, it keeps the duties 3, 4 and 5 of R140: `staged` and `placed` are the regions written so far in SB and
in SRC, and `plen` is PLEN. -/
inductive KeepsDuties : (staged placed : List (Nat × Nat)) → (plen : Nat) → List HostAction → Prop
  | nil {staged placed plen} : KeepsDuties staged placed plen []
  | setRoff {staged placed plen n l} (hn : n < 2 ^ 61) (hl : KeepsDuties staged placed plen l) :
      KeepsDuties staged placed plen (.setRoff n :: l)
  | srcWrite {staged placed plen base bytes l} (hl : KeepsDuties staged ((base, bytes.length) :: placed) plen l) :
      KeepsDuties staged placed plen (.srcWrite base bytes :: l)
  | command {staged placed plen i l} (hi : i.wellFormed = true)
      (hcopy : ∀ k < (sourceRegionOf i).2, covered placed ((sourceRegionOf i).1 + k) = true)
      (hstale : ∀ k < compressedLength plen i, covered staged k = true)
      (hl : KeepsDuties (stagedRegionOf i :: staged) placed (plenAfter plen i) l) :
      KeepsDuties staged placed plen (issueOf i :: l)

/-- PLEN after a command whose run has not faulted. -/
theorem plen_of_exec {i : Instr} {s t : State} (hl : s.cfg.legal = true) (he : s.err = false) (ht : t.err = false)
    (h : exec i s = .next t) : t.plen.toNat = plenAfter s.plen.toNat i := by
  have hkept (hi : ∀ len msgLen, i ≠ .pad len msgLen) : t.plen = s.plen := by
    by_contra hne
    obtain ⟨len, msgLen, hpad⟩ := (onlyItsWritersChangeState i s t h).2.2 hne
    exact hi len msgLen hpad
  cases i with
  | pad len msgLen => exact exec_pad_plen hl he h ht
  | _ => rw [hkept (by simp)]; rfl

/-! ### The duties at one step -/

theorem roffBelowLimit_of_wanted {intent : HostIntent} {s : State} (h : (∃ u, intent.wantsTrailer u = true) → s.roff < 2 ^ 61) :
    roffBelowLimit intent s = true := by
  cases hs : intent.wantsTrailer s with
  | false => exact roffBelowLimit_of_unwanted hs
  | true => exact roffBelowLimit_of_lt (h ⟨s, hs⟩)

section
variable {intent : HostIntent} {staged placed : List (Nat × Nat)} {s t : State} {l : List HostAction}

/-- Only a command can break the duties 2 to 4. -/
theorem duties_of_no_command {a : HostAction} (hp : s.pending = a :: l) (ha : ∀ w, a ≠ .command w) :
    nextDoesNotFault s = true ∧ nextIsReliable intent s = true ∧ nextCopiesPlaced placed s = true ∧
      nextIsStaleFree staged s = true := by
  cases a with
  | command w => exact absurd rfl (ha w)
  | _ => simp only [nextDoesNotFault, nextIsReliable, nextCopiesPlaced, nextIsStaleFree, hp, and_self]

section
variable {i : Instr} (hi : i.wellFormed = true) (hp : s.pending = issueOf i :: l)
include hi hp

/-- What a step that issues a command runs. -/
theorem exec_of_step (hl : s.cfg.legal = true) (h : step s = .next t) :
    ∃ u, exec i (s.issue l) = .next u ∧ t = u.receive := by
  rw [step_command hl hp, runCommand_of_decode (decodeOfEncode i hi)] at h
  exact State.afterCommand_eq_next h

theorem duties_of_command (he : s.err = false) (h : step s = .next t) (ht : t.err = false)
    (hcopy : ∀ k < (sourceRegionOf i).2, covered placed ((sourceRegionOf i).1 + k) = true)
    (hstale : ∀ k < compressedLength s.plen.toNat i, covered staged k = true) :
    nextDoesNotFault s = true ∧ nextIsReliable intent s = true ∧ nextCopiesPlaced placed s = true ∧
      nextIsStaleFree staged s = true := by
  have hdecode := decodeOfEncode i hi
  refine ⟨?_, nextIsReliable_of_noError he, ?_, ?_⟩
  · simp [nextDoesNotFault, hp, issueOf, he, h, ht]
  · simpa [nextCopiesPlaced, hp, issueOf, hdecode, he] using hcopy
  · simpa [nextIsStaleFree, hp, issueOf, hdecode, he, compressedLengthOf_eq] using hstale

theorem stagedAfter_command : stagedAfter staged s = stagedRegionOf i :: staged := by
  simp only [stagedAfter, hp, issueOf, decodeOfEncode i hi]

end

/-- A step that is no RST and leads to ERR = 0 started with it (R150). -/
theorem noError_of_step {a : HostAction} (hp : s.pending = a :: l) (ha : ∀ d, a ≠ .rst d) (h : step s = .next t)
    (ht : t.err = false) : s.err = false := by
  obtain hsame | ⟨d, rest, hrst, -⟩ | ⟨he, -⟩ := onlyResetClearsStatus s t h
  · rwa [State.err, ← hsame]
  · exact absurd (List.head_eq_of_cons_eq (hp.symm.trans hrst)) (ha d)
  · exact he

end

/-- A host write that does not stop changes SRC only. -/
theorem hostWriteSource_eq_next {s t : State} {base : Nat} {bytes : List Byte} (h : s.hostWriteSource base bytes = .next t) :
    ∃ m, t = s.setSource m := by
  unfold State.hostWriteSource at h
  split_ifs at h <;> cases h
  · exact ⟨s.src, rfl⟩
  · exact ⟨_, rfl⟩

/-! ### The duties along a run -/

/-- A run of such a list that ends without a fault had ERR = 0 all along, and kept every duty. -/
theorem KeepsDuties.dutiful {intent : HostIntent} {staged placed : List (Nat × Nat)} {plen : Nat} {l : List HostAction}
    (h : KeepsDuties staged placed plen l) {s t : State} (hl : s.cfg.legal = true) (hp : s.pending = l)
    (hroff : (∃ u, intent.wantsTrailer u = true) → s.roff < 2 ^ 61) (hrun : core.run l.length s = .next t) (ht : t.err = false) :
    s.err = false ∧ (s.plen.toNat = plen → dutiful intent l.length staged placed s = true) := by
  induction h generalizing s with
  | nil =>
    cases hrun
    exact ⟨ht, fun _ => roffBelowLimit_of_wanted hroff⟩
  | @setRoff staged placed plen n l hn _ ih =>
    obtain ⟨v, hstep, hrest⟩ := exists_step_of_run hrun
    obtain rfl := Host.Outcome.next.inj ((step_setRoff hl hp).symm.trans hstep)
    obtain ⟨hv, hdut⟩ := ih (s := (s.setPending l).setRoff n) hl rfl (fun _ => hn) hrest
    refine ⟨noError_of_step hp nofun hstep hv, fun hplen => dutiful_succ.mpr
      ⟨⟨roffBelowLimit_of_wanted hroff, duties_of_no_command hp nofun⟩, _, hstep, ?_⟩⟩
    rw [stagedAfter, placedAfter, hp]
    exact hdut hplen
  | @srcWrite staged placed plen base bytes l _ ih =>
    obtain ⟨v, hstep, hrest⟩ := exists_step_of_run hrun
    obtain ⟨m, rfl⟩ := hostWriteSource_eq_next (step_srcWrite hl hp ▸ hstep)
    obtain ⟨hv, hdut⟩ := ih (s := (s.setPending l).setSource m) hl rfl hroff hrest
    refine ⟨noError_of_step hp nofun hstep hv, fun hplen => dutiful_succ.mpr
      ⟨⟨roffBelowLimit_of_wanted hroff, duties_of_no_command hp nofun⟩, _, hstep, ?_⟩⟩
    rw [stagedAfter, placedAfter, hp]
    exact hdut hplen
  | @command staged placed plen i l hi hcopy hstale _ ih =>
    obtain ⟨v, hstep, hrest⟩ := exists_step_of_run hrun
    obtain ⟨u, hexec, rfl⟩ := exec_of_step hi hp hl hstep
    have hhost := exec_sameHost hexec
    have hcfg : u.cfg = s.cfg := hhost.cfg
    have hroffu : u.roff = s.roff := hhost.roff
    obtain ⟨hv, hdut⟩ := ih (s := u.receive) (hcfg ▸ hl) hhost.pending (fun hw => hroffu ▸ hroff hw) hrest
    have he := noError_of_step hp nofun hstep hv
    refine ⟨he, fun hplen => ?_⟩
    subst hplen
    refine dutiful_succ.mpr ⟨⟨roffBelowLimit_of_wanted hroff, duties_of_command hi hp he hstep hv hcopy hstale⟩, _, hstep, ?_⟩
    rw [stagedAfter_command hi hp, placedAfter, hp]
    exact hdut (plen_of_exec (s := s.issue l) (t := u) hl he hv hexec)

/-! ### The one-shot digest's list (R133) -/

theorem covered_cons (r : Nat × Nat) (regions : List (Nat × Nat)) (k : Nat) :
    covered (r :: regions) k = true ↔ (r.1 ≤ k ∧ k < r.1 + r.2) ∨ covered regions k = true := by
  simp only [covered, List.any_cons, Bool.or_eq_true, Bool.and_eq_true, decide_eq_true_eq]

/-- A region that starts where the covered bytes end covers the bytes up to its own end. -/
theorem covered_of_lt {regions : List (Nat × Nat)} {a n : Nat} (h : ∀ k < a, covered regions k = true) :
    ∀ k < a + n, covered ((a, n) :: regions) k = true := fun k hk => by
  rw [covered_cons]
  obtain hlow | hhigh := Nat.lt_or_ge k a
  · exact .inr (h k hlow)
  · exact .inl ⟨hhigh, hk⟩

/-- A command that copies and compresses nothing keeps the duties. -/
theorem KeepsDuties.quiet {staged placed : List (Nat × Nat)} {plen : Nat} {i : Instr} {l : List HostAction} (hi : i.wellFormed = true)
    (hcopy : (sourceRegionOf i).2 = 0) (hstale : compressedLength plen i = 0)
    (hl : KeepsDuties (stagedRegionOf i :: staged) placed (plenAfter plen i) l) : KeepsDuties staged placed plen (issueOf i :: l) :=
  .command hi (by rw [hcopy]; exact fun k hk => absurd hk (Nat.not_lt_zero k))
    (by rw [hstale]; exact fun k hk => absurd hk (Nat.not_lt_zero k)) hl

/-- `reset` keeps the duties, whatever has been staged. -/
theorem keepsDuties_reset {staged placed : List (Nat × Nat)} {plen : Nat} {l : List HostAction}
    (h : KeepsDuties (stagedRegionOf .init :: staged) placed plen l) : KeepsDuties staged placed plen (resetRoutine ++ l) :=
  .quiet rfl rfl rfl (.setRoff (by decide) h)

/-- `update` of bytes placed in SRC, behind staged bytes: each COMPRESS has its whole chunk packed, and the rest is staged for
what follows. -/
theorem keepsDuties_update {cfg : Config} (hl : cfg.legal = true) (base n roff : Nat) {staged placed : List (Nat × Nat)} {plen : Nat}
    {l : List HostAction} (hfit : base + n ≤ cfg.srcLen) (hroff : roff + n < 2 ^ 61)
    (hstaged : ∀ k < roff % cfg.chunk, covered staged k = true) (hplaced : ∀ k < n, covered placed (base + k) = true)
    (hrest : ∀ staged', (∀ k < (roff + n) % cfg.chunk, covered staged' k = true) → KeepsDuties staged' placed plen l) :
    KeepsDuties staged placed plen (updateRoutine cfg.chunk base n roff ++ l) := by
  have hc := chunk_pos_of_legal hl
  induction base, n, roff using updateRoutine_induction hc generalizing staged with
  | zero base roff => exact hrest staged hstaged
  | part base n roff hn hlt =>
    rw [updateRoutine_of_lt hn hlt]
    have hwf := wellFormed_pack hl hn hfit (hlt.le.trans (Nat.le_add_right _ 64))
    have hnext := hrest ((roff % cfg.chunk, n) :: staged) (by rw [(add_div_mod_of_lt hlt).2]; exact covered_of_lt hstaged)
    exact .command hwf hplaced nofun (.setRoff hroff hnext)
  | whole base k n roff hk ih =>
    rw [updateRoutine_of_eq hc hk]
    have hpos : 0 < k := by have := Nat.mod_lt roff hc; omega
    have hwf := wellFormed_pack (src := base) hl hpos (by omega) (hk.le.trans (Nat.le_add_right _ 64))
    have hfull := covered_of_lt (n := k) hstaged
    rw [hk] at hfull
    have hnext := ih (staged := stagedRegionOf (.compress cfg.chunk) :: (roff % cfg.chunk, k) :: staged) (by omega) (by omega)
      (by rw [(add_div_mod_of_eq hc hk).2]; exact fun k hk => absurd hk (Nat.not_lt_zero k))
      (fun j hj => by rw [Nat.add_assoc]; exact hplaced _ (by omega)) (by rwa [Nat.add_assoc])
    exact .command hwf (fun j hj => hplaced j (Nat.lt_of_lt_of_le hj (Nat.le_add_right k n))) nofun
      (.setRoff (by omega) (.command (wellFormed_compress_chunk hl) nofun hfull hnext))

/-- `finalize` compresses the staged bytes and the padding that PAD has written behind them. -/
theorem keepsDuties_finalize {cfg : Config} (hl : cfg.legal = true) {n plen : Nat} {staged placed : List (Nat × Nat)} (hn : n < 2 ^ 64)
    (hstaged : ∀ k < n % cfg.chunk, covered staged k = true) : KeepsDuties staged placed plen (finalizeRoutine cfg.chunk n) := by
  have hoff := Nat.mod_lt n (chunk_pos_of_legal hl)
  have hfit := (paddedLength_le_padcap_iff hl (n % cfg.chunk)).mpr (by omega)
  obtain ⟨-, hlow, -⟩ := paddedLength_bounds (n % cfg.chunk)
  have hpadded := covered_of_lt (n := paddedLength (n % cfg.chunk) - n % cfg.chunk) hstaged
  rw [Nat.add_sub_cancel' (by omega)] at hpadded
  have hreset {staged plen} : KeepsDuties staged placed plen resetRoutine := keepsDuties_reset .nil
  exact .quiet (wellFormed_pad hl hfit hn) rfl rfl (.command rfl nofun hpadded
    (.quiet rfl rfl rfl (.quiet rfl rfl rfl (.quiet rfl rfl rfl (.quiet rfl rfl rfl (.quiet rfl rfl rfl hreset))))))

/-- The one-shot digest keeps the duties with nothing placed or staged before it. -/
theorem keepsDuties_digest {cfg : Config} (hl : cfg.legal = true) {base plen : Nat} {bytes : List Byte}
    (hfit : base + bytes.length ≤ cfg.srcLen) : KeepsDuties [] [] plen (digestRoutine cfg.chunk base bytes) := by
  have hlen := srcLen_le_of_legal hl
  rw [digestRoutine, List.append_assoc]
  refine keepsDuties_reset (.srcWrite (keepsDuties_update hl base bytes.length 0 hfit (by omega) ?_ ?_ ?_))
  · rw [Nat.zero_mod]
    exact fun k hk => absurd hk (Nat.not_lt_zero k)
  · exact fun k hk => (covered_cons ..).mpr (.inl ⟨Nat.le_add_right base k, Nat.add_lt_add_left hk base⟩)
  · rw [Nat.zero_add]
    exact fun staged' hstaged => keepsDuties_finalize hl (by omega) hstaged

/-- Settles O52: the run ends without a fault as O51 says, and its list keeps the other duties. -/
theorem digestRoutineKeepsDuties : Obligations.DigestRoutineKeepsDuties := by
  intro intent s base bytes hl herr hroff hfit hp
  obtain ⟨t, -, hrun, -, herrt, -⟩ := digestRoutineReturnsDigest s base bytes hl herr hfit hp
  have hlist : KeepsDuties [] [] s.plen.toNat s.pending := hp ▸ keepsDuties_digest hl hfit
  exact ⟨t, ⟨hrun, herrt⟩, (hlist.dutiful hl rfl hroff hrun herrt).2 rfl⟩

end Sys2Proof.Machine
end

section
/-! PROOFS. Exceptions (60_exceptions.md): the fault action, what a command does while ERR = 1, what the block keeps between
commands, and the configurations that are refused. -/

namespace Sys2Proof

/-- The cause codes a fault records (R142). -/
theorem Cause.code_bounds (c : Cause) : 1 ≤ c.code ∧ c.code ≤ 9 := by cases c <;> decide

theorem Config.legalChunk_eq_false_iff (cfg : Config) :
    cfg.legalChunk = false ↔ cfg.chunk = 0 ∨ cfg.chunk % 64 ≠ 0 ∨ 2 ^ 32 - 128 < cfg.chunk := by
  simp only [Config.legalChunk, Bool.and_eq_false_iff, decide_eq_false_iff_not]
  omega

/-- The chunk size is checked before the source size, so an illegal one is always the reason (R145). -/
theorem Config.refusal_of_illegal_chunk {cfg : Config} (h : cfg.legalChunk = false) :
    cfg.refusal = some .configurationError := if_neg (Bool.eq_false_iff.mp h)

end Sys2Proof

namespace Sys2Proof.Machine

/-! ### The fault action (R141) -/

/-- The fault action in both ERR states: only the first fault is recorded. -/
theorem State.finish_raise_status (isRead : Bool) (c : Cause) (s : State) :
    s.finish isRead (.raise c) = .next { s with
      status := if s.err then s.status else faultStatus c
      result := 0x00000000#32 } := by
  cases he : s.err with
  | false => exact State.finish_raise he isRead c
  | true => exact State.finish_raise_err he isRead c

/-- Settles O24: the fault action by ERR, and `runCommand_status` for what a command word does to STATUS. -/
theorem faultChangesOnlyStatus : Obligations.FaultChangesOnlyStatus := by
  refine ⟨State.finish_raise_status, fun w s t h hne => ?_⟩
  obtain hsame | ⟨he, c, rfl⟩ := runCommand_status h
  · exact absurd hsame hne
  · obtain ⟨hlow, hhigh⟩ := c.code_bounds
    exact ⟨he, c.code, hlow, hhigh, rfl⟩

/-! ### Commands while ERR = 1 (R144) -/

theorem isReadCommand_eq_false {i : Instr} (hr : ∀ r, i ≠ .rdreg r) (hj : ∀ j, i ≠ .rdsb j) : isReadCommand i = false := by
  cases i with
  | rdreg r => exact absurd rfl (hr r)
  | rdsb j => exact absurd rfl (hj j)
  | _ => rfl

section
variable {s : State} (he : s.err = true)
include he

theorem exec_dropped {i : Instr} (hi : isReadCommand i = false) : exec i s = .next (s.setResult 0x00000000#32) := by
  rw [exec_eq_finish, hi, State.finish_dropped he]

/-- A read that fails its check is dropped like any other command (R114, R120). -/
theorem exec_dropped_of_raise {i : Instr} {c : Cause} (h : ruleOf i s = .raise c) :
    exec i s = .next (s.setResult 0x00000000#32) := by
  rw [exec_eq_finish, h, State.finish_raise_err he]

theorem runCommand_dropped_of_decode_error {w : CommandWord} {c : Cause} (h : decode w = .error c) :
    runCommand w s = .next (s.setResult 0x00000000#32) := by
  simp only [runCommand, h, State.finish_raise_err he]

end

/-- Settles O26: a read returns its value in either ERR state, and everything else is dropped. -/
theorem errorStateDropsCommands : Obligations.ErrorStateDropsCommands := by
  intro s he
  refine ⟨fun w i hd hr hj => ?_, fun w c hd => runCommand_dropped_of_decode_error he hd, fun r v => exec_rdreg,
    fun r hr => ?_, fun j => exec_rdsb, fun j hj => ?_⟩
  · rw [runCommand_of_decode hd]
    exact exec_dropped he (isReadCommand_eq_false hr hj)
  · exact exec_dropped_of_raise (i := .rdreg r) he (ruleRdreg_unmapped ((readRegister_eq_none_iff s r).mp hr))
  · exact exec_dropped_of_raise (i := .rdsb j) he (ruleRdsb_past_sb hj)

/-! ### Between commands (R157) -/

theorem step_of_pending_nil {s : State} (hl : s.cfg.legal = true) (hp : s.pending = []) : step s = .next s := by
  simp only [step, (refusal_eq_none_iff s.cfg).mpr hl, hp]

/-- Settles O38, by the host's action: a write to SRC and an update of ROFF set none of the block's four fields. -/
theorem blockHoldsBetweenCommands : Obligations.BlockHoldsBetweenCommands := by
  intro s hl
  refine ⟨step_of_pending_nil hl, fun t h hcommand hrst => ?_⟩
  obtain ⟨-, ⟨-, rfl⟩ | ⟨w, rest, u, hp, -⟩ | ⟨d, rest, hp, -⟩ | ⟨base, bytes, rest, -, hsrc⟩ | ⟨n, rest, -, rfl⟩⟩ :=
    step_cases h
  · exact ⟨rfl, rfl, rfl, rfl⟩
  · exact absurd hp (hcommand w rest)
  · exact absurd hp (hrst d rest)
  · obtain ⟨-, rfl⟩ | ⟨-, -, rfl⟩ := hsrc <;> exact ⟨rfl, rfl, rfl, rfl⟩
  · exact ⟨rfl, rfl, rfl, rfl⟩

/-! ### The Configuration Error (R145) -/

theorem step_refused {s : State} {r : Refusal} (h : s.cfg.refusal = some r) : step s = .refused r := by
  simp only [step, h]

theorem State.construct_refused {cfg : Config} {r : Refusal} (h : cfg.refusal = some r) (sbInit : Memory) :
    State.construct cfg sbInit = .refused r := by
  simp only [State.construct, h]

/-- Settles O37: `step` and `construct` both begin with the check that fails. -/
theorem illegalChunkIsRefused : Obligations.IllegalChunkIsRefused := by
  intro cfg hc
  have hrefusal : cfg.refusal = some .configurationError :=
    Config.refusal_of_illegal_chunk (cfg.legalChunk_eq_false_iff.mpr hc)
  exact ⟨fun s hs => step_refused (hs ▸ hrefusal), State.construct_refused hrefusal⟩

end Sys2Proof.Machine
end

section
/-! PROOFS. Reset and hazards (70_reset_and_hazards.md): what RST sets and constructs, and that two runs which differ in the
draw of their RST agree as long as the host compresses no byte it has not written since. -/

namespace Sys2Proof.Machine

/-! ### RST and construction (R125, R158) -/

theorem step_rst {s : State} {d : Memory} {rest : List HostAction} (hl : s.cfg.legal = true) (hp : s.pending = .rst d :: rest) :
    step s = .next ((s.setPending rest).assertReset d) := by
  simp only [step, (refusal_eq_none_iff s.cfg).mpr hl, hp]

/-- Settles O36: SB becomes the draw confined to the addresses below PADCAP. -/
theorem rstSetsResetValues : Obligations.RstSetsResetValues := by
  intro s sbInit rest hl hp
  exact ⟨sbInit.confine s.cfg.padcap, step_rst hl hp, fun k hk => Memory.read_confine sbInit hk⟩

/-- The reset state with the parameters of any legal block meets the invariant. -/
theorem State.inv_reset_of_legal {cfg : Config} (h : cfg.legal = true) : ({ State.reset with cfg := cfg } : State).Inv where
  legal := h
  sbWf := ⟨List.Pairwise.nil, nofun⟩
  sbWithin := nofun
  srcWf := ⟨List.Pairwise.nil, nofun⟩
  srcWithin := nofun
  plen := ⟨rfl, Nat.zero_le _⟩
  status := rfl

theorem State.construct_of_legal {cfg : Config} (h : cfg.legal = true) (sbInit : Memory) :
    State.construct cfg sbInit = .next ((({ State.reset with cfg := cfg } : State).assertReset sbInit).setRoff 0) := by
  simp only [State.construct, (refusal_eq_none_iff cfg).mpr h]

/-- Settles O35: construction is RST, which keeps the invariant, of the reset state with the block's parameters. -/
theorem resetMeetsInvariant : Obligations.ResetMeetsInvariant := by
  refine ⟨State.inv_reset_of_legal (cfg := Config.default) (by decide), fun cfg sbInit hl => ?_⟩
  exact ⟨_, State.construct_of_legal hl sbInit, ((State.inv_reset_of_legal hl).assertReset sbInit).setRoff 0, rfl⟩

/-! ### Two states that agree but for the draw (R15, R164) -/

/-- A write gives the same byte on both sides where it writes, and elsewhere if it was the same before. -/
theorem Memory.read_writeBytes_congr {m m' : Memory} {base k : Nat} {bytes : List Byte}
    (h : (base ≤ k ∧ k < base + bytes.length) ∨ m.read k = m'.read k) :
    (m.writeBytes base bytes).read k = (m'.writeBytes base bytes).read k := by
  rw [read_writeBytes, read_writeBytes]
  split
  · rfl
  · exact h.resolve_left ‹_›

theorem read_padded_congr {m m' : Memory} {len k : Nat} (msgLen : Nat)
    (h : (len ≤ k ∧ k < paddedLength len) ∨ m.read k = m'.read k) :
    (padded len msgLen m).read k = (padded len msgLen m').read k := by
  rw [read_padded, read_padded]
  split
  · exact h.resolve_left (by omega)
  · rfl

namespace AgreeOn

theorem refl (regions : List (Nat × Nat)) (s : State) : AgreeOn regions s s := ⟨rfl, fun _ _ _ => rfl⟩

section
variable {regions : List (Nat × Nat)} {s u : State} (h : AgreeOn regions s u)
include h

/-! What the block's commands read of two such states is the same, but for SB. -/

theorem cfg : u.cfg = s.cfg := (congrArg State.cfg h.rest :)
theorem chain : u.h = s.h := (congrArg State.h h.rest :)
theorem plen : u.plen = s.plen := (congrArg State.plen h.rest :)
theorem status : u.status = s.status := (congrArg State.status h.rest :)
theorem src : u.src = s.src := (congrArg State.src h.rest :)
theorem pending : u.pending = s.pending := (congrArg State.pending h.rest :)
theorem err : u.err = s.err := (congrArg State.err h.rest :)
theorem plenLength : u.plenLength = s.plenLength := (congrArg State.plenLength h.rest :)
theorem readRegister (r : Nat) : u.readRegister r = s.readRegister r := (congrArg (State.readRegister · r) h.rest :)

/-! The same update on both sides keeps the agreement. -/

theorem setChain (c : Chain) : AgreeOn regions (s.setChain c) (u.setChain c) :=
  ⟨congrArg (State.setChain c) h.rest, h.written⟩

theorem setPlen (w : Word) : AgreeOn regions (s.setPlen w) (u.setPlen w) :=
  ⟨congrArg (State.setPlen w) h.rest, h.written⟩

theorem setSource (m : Memory) : AgreeOn regions (s.setSource m) (u.setSource m) :=
  ⟨congrArg (State.setSource m) h.rest, h.written⟩

theorem setRoff (n : Nat) : AgreeOn regions (s.setRoff n) (u.setRoff n) :=
  ⟨congrArg (State.setRoff n) h.rest, h.written⟩

theorem setPending (l : List HostAction) : AgreeOn regions (s.setPending l) (u.setPending l) :=
  ⟨congrArg (State.setPending l) h.rest, h.written⟩

theorem issue (l : List HostAction) : AgreeOn regions (s.issue l) (u.issue l) :=
  ⟨congrArg (State.issue l) h.rest, h.written⟩

/-- The result words may differ, being what was read from SB. -/
theorem setResult (r r' : Word) : AgreeOn regions (s.setResult r) (u.setResult r') :=
  ⟨congrArg (State.setResult r') h.rest, h.written⟩

theorem receive : AgreeOn regions s.receive u.receive :=
  ⟨congrArg (State.setResults (u.results ++ [u.result])) h.rest, h.written⟩

/-- The draws may differ, no byte of SB counting as written after RST. -/
theorem assertReset (d d' : Memory) : AgreeOn [] (s.assertReset d) (u.assertReset d') :=
  ⟨congrArg (fun v => (v.assertReset d').setStaging (u.assertReset d').sb) h.rest, fun _ _ hk => by cases hk⟩

/-- A region joins the written ones when each of its bytes, and each byte of SB that was the same, becomes the same. -/
theorem setStaging {a n : Nat} {m m' : Memory}
    (hread : ∀ k, (a ≤ k ∧ k < a + n) ∨ s.sb.read k = u.sb.read k → m.read k = m'.read k) :
    AgreeOn ((a, n) :: regions) (s.setStaging m) (u.setStaging m') where
  rest := congrArg (State.setStaging m') h.rest
  written he k hk := hread k (((covered_cons ..).mp hk).imp_right (h.written he k))

theorem cons_empty (a : Nat) : AgreeOn ((a, 0) :: regions) s u where
  rest := h.rest
  written he k hk := h.written he k (((covered_cons ..).mp hk).resolve_left (by omega))

/-- With ERR = 1 nothing is asked of SB. -/
theorem of_err (he : s.err = true) (regions' : List (Nat × Nat)) : AgreeOn regions' s u :=
  ⟨h.rest, fun hclear => absurd he (Bool.eq_false_iff.mp hclear)⟩

/-- The first fault, of the same cause on both sides, sets ERR (R141). -/
theorem fault (c : Cause) (regions' : List (Nat × Nat)) :
    AgreeOn regions' { s with status := faultStatus c, result := 0x00000000#32 }
      { u with status := faultStatus c, result := 0x00000000#32 } :=
  ⟨congrArg (fun v => (v.setStatus (faultStatus c)).setResult 0x00000000#32) h.rest,
    fun hclear => absurd (faultStatus_err c) (Bool.eq_false_iff.mp hclear)⟩

theorem hostWriteSource {base : Nat} {bytes : List Byte} {t : State} (hs : s.hostWriteSource base bytes = .next t) :
    ∃ t', u.hostWriteSource base bytes = .next t' ∧ AgreeOn regions t t' := by
  simp only [State.hostWriteSource, h.cfg, h.src] at hs ⊢
  split_ifs at hs ⊢ with hnil hfits <;> cases hs
  · exact ⟨u, rfl, h⟩
  · exact ⟨_, rfl, h.setSource _⟩

end

end AgreeOn

/-! ### The rule of a command on two such states -/

/-- Two rules end alike: with the same cause, or with effects that agree, whatever their result words. -/
inductive OutcomesAgree (regions : List (Nat × Nat)) : RuleOutcome → RuleOutcome → Prop
  | ok {t t' : State} (h : AgreeOn regions t t') (r r' : Word) : OutcomesAgree regions (.ok t r) (.ok t' r')
  | raise (c : Cause) : OutcomesAgree regions (.raise c) (.raise c)

/-- While ERR = 1 a command changes nothing but the result (R144). -/
theorem State.eq_setResult_of_finish {s t : State} {isRead : Bool} {o : RuleOutcome} (he : s.err = true)
    (h : s.finish isRead o = .next t) : ∃ r, t = s.setResult r := by
  cases o with
  | ok v r =>
    rw [State.finish_ok_err he] at h
    cases h
    exact ⟨_, rfl⟩
  | raise c =>
    rw [State.finish_raise_err he] at h
    cases h
    exact ⟨_, rfl⟩

/-- What a command compresses while ERR = 0 has been written, if it compresses no stale byte (R164). -/
theorem covered_of_staleFree {regions : List (Nat × Nat)} {s : State} {w : CommandWord} {i : Instr} {rest : List HostAction}
    (hp : s.pending = .command w :: rest) (hd : decode w = .ok i) (he : s.err = false) (h : nextIsStaleFree regions s = true) :
    ∀ k < compressedLength s.plen.toNat i, covered regions k = true := by
  simpa [nextIsStaleFree, hp, hd, he, compressedLengthOf_eq] using h

namespace AgreeOn

section
variable {regions : List (Nat × Nat)} {s u : State} (h : AgreeOn regions s u)
include h

theorem rulePack (src count dst : Nat) :
    OutcomesAgree ((dst, count) :: regions) (rulePack src count dst s) (rulePack src count dst u) := by
  simp only [Machine.rulePack, h.cfg]
  split_ifs with hcount
  · subst hcount
    exact .ok (h.cons_empty dst) _ _
  · exact .raise _
  · exact .raise _
  · refine .ok (h.setStaging fun k hk => ?_) _ _
    rw [packed, packed, h.src]
    exact Memory.read_writeBytes_congr (by rwa [Memory.length_readBytes])

theorem rulePad (len msgLen : Nat) :
    OutcomesAgree ((len, paddedLength len - len) :: regions) (rulePad len msgLen s) (rulePad len msgLen u) := by
  have hb := paddedLength_bounds len
  simp only [Machine.rulePad, h.cfg]
  split_ifs
  · exact .raise _
  · refine .ok ((h.setStaging fun k hk => read_padded_congr msgLen ?_).setPlen _) _ _
    exact hk.imp_left fun hin => ⟨hin.1, by omega⟩

theorem ruleWrsb (j : Nat) (v : Word) :
    OutcomesAgree ((wordAddr j, 4) :: regions) (ruleWrsb j v s) (ruleWrsb j v u) := by
  simp only [Machine.ruleWrsb, h.cfg]
  split_ifs
  · refine .ok (h.setStaging fun k hk => ?_) _ _
    exact Memory.read_writeBytes_congr (by rwa [Memory.length_be32])
  · exact .raise _

/-- The compressed bytes being the same, so is the chaining value (R104). -/
theorem ruleCompress {len : Nat} (hfresh : ∀ k < len, s.sb.read k = u.sb.read k) :
    OutcomesAgree regions (ruleCompress len s) (ruleCompress len u) := by
  have hchain : compressBlocks u.sb (len / 64) u.h = compressBlocks s.sb (len / 64) s.h := by
    rw [h.chain]
    exact compressBlocks_congr s.h fun k hk => (hfresh k (by omega)).symm
  simp only [Machine.ruleCompress, h.cfg, hchain]
  split_ifs
  · exact .raise _
  · exact .raise _
  · exact .ok (h.setChain _) _ _

theorem ruleRdreg (r : Nat) : OutcomesAgree regions (ruleRdreg r s) (ruleRdreg r u) := by
  simp only [Machine.ruleRdreg, h.readRegister]
  cases s.readRegister r with
  | some v => exact .ok h _ _
  | none => exact .raise _

theorem ruleWrreg (r : Nat) (v : Word) : OutcomesAgree regions (ruleWrreg r v s) (ruleWrreg r v u) := by
  simp only [Machine.ruleWrreg, h.chain]
  split_ifs
  · exact .raise _
  · exact .raise _
  · exact .ok (h.setChain _) _ _

theorem ruleRdsb (j : Nat) : OutcomesAgree regions (ruleRdsb j s) (ruleRdsb j u) := by
  simp only [Machine.ruleRdsb, h.cfg]
  split_ifs
  · exact .ok h _ _
  · exact .raise _

end

variable {regions : List (Nat × Nat)} {s u : State} (h : AgreeOn regions s u)
include h

/-- A command's rule ends alike if the bytes it compresses are the same; what it writes to SB is the same afterwards. -/
theorem ruleOf {i : Instr} (hfresh : ∀ k < compressedLength s.plen.toNat i, s.sb.read k = u.sb.read k) :
    OutcomesAgree (stagedRegionOf i :: regions) (ruleOf i s) (ruleOf i u) := by
  have hsame : AgreeOn ((0, 0) :: regions) s u := h.cons_empty 0
  cases i with
  | nop => exact .ok hsame _ _
  | init => exact .ok (hsame.setChain _) _ _
  | pack src count dst => exact h.rulePack src count dst
  | pad len msgLen => exact h.rulePad len msgLen
  | compress len => exact hsame.ruleCompress hfresh
  | compressP =>
    rw [Machine.ruleOf, Machine.ruleOf, h.plenLength]
    exact hsame.ruleCompress hfresh
  | rdreg r => exact hsame.ruleRdreg r
  | wrreg r v => exact hsame.ruleWrreg r v
  | rdsb j => exact hsame.ruleRdsb j
  | wrsb j v => exact h.ruleWrsb j v

/-- A command on two such states ends on states that agree: while ERR = 1 it changes nothing but the result (R144). -/
theorem finish {regions' : List (Nat × Nat)} {isRead : Bool} {o o' : RuleOutcome} {t : State}
    (ho : s.err = false → OutcomesAgree regions' o o') (hs : s.finish isRead o = .next t) :
    ∃ t', u.finish isRead o' = .next t' ∧ AgreeOn regions' t t' := by
  cases he : s.err with
  | false =>
    have heu : u.err = false := h.err.trans he
    cases ho he with
    | ok hag r r' =>
      rw [State.finish_ok he] at hs
      cases hs
      exact ⟨_, State.finish_ok heu .., hag.setResult r r'⟩
    | raise c =>
      rw [State.finish_raise he] at hs
      cases hs
      exact ⟨_, State.finish_raise heu .., h.fault c regions'⟩
  | true =>
    obtain ⟨r, rfl⟩ := State.eq_setResult_of_finish he hs
    obtain ⟨t', ht'⟩ := State.exists_finish u isRead o'
    obtain ⟨r', rfl⟩ := State.eq_setResult_of_finish (h.err.trans he) ht'
    exact ⟨_, ht', (h.of_err he regions').setResult r r'⟩

/-- The host's next command, if it compresses no stale byte. -/
theorem runCommand {w : CommandWord} {rest : List HostAction} {t : State} (hp : s.pending = .command w :: rest)
    (hfree : nextIsStaleFree regions s = true) (hs : runCommand w (s.issue rest) = .next t) :
    ∃ t', runCommand w (u.issue rest) = .next t' ∧ AgreeOn (stagedAfter regions s) t t' := by
  cases hd : decode w with
  | ok i =>
    simp only [stagedAfter, hp, hd]
    rw [runCommand_of_decode hd, exec_eq_finish] at hs ⊢
    refine (h.issue rest).finish (fun he => (h.issue rest).ruleOf fun k hk => ?_) hs
    exact h.written he k (covered_of_staleFree hp hd he hfree k hk)
  | error c =>
    simp only [stagedAfter, hp, hd]
    simp only [Machine.runCommand, hd] at hs ⊢
    exact (h.issue rest).finish (fun _ => .raise c) hs

end AgreeOn

/-! ### Steps and runs that compress no stale byte (R164) -/

/-- Settles O57, by the host's action: a command by its rule, RST by its draw, which is the same on both sides. -/
theorem staleFreeStepKeepsAgreement : Obligations.StaleFreeStepKeepsAgreement := by
  intro regions s u t h hfree hstep
  obtain ⟨hl, hcase⟩ := step_cases hstep
  have hlu : u.cfg.legal = true := by rwa [h.cfg]
  obtain ⟨hp, rfl⟩ | ⟨w, rest, v, hp, hv, rfl⟩ | ⟨d, rest, hp, rfl⟩ | ⟨base, bytes, rest, hp, -⟩ | ⟨n, rest, hp, rfl⟩ := hcase
  · rw [stagedAfter, hp]
    exact ⟨u, step_of_pending_nil hlu (h.pending.trans hp), h⟩
  · obtain ⟨v', hv', hagree⟩ := h.runCommand hp hfree hv
    exact ⟨v'.receive, by rw [step_command hlu (h.pending.trans hp), hv', State.afterCommand], hagree.receive⟩
  · rw [stagedAfter, hp]
    exact ⟨_, step_rst hlu (h.pending.trans hp), (h.setPending rest).assertReset d d⟩
  · rw [step_srcWrite hl hp] at hstep
    rw [step_srcWrite hlu (h.pending.trans hp), stagedAfter, hp]
    exact (h.setPending rest).hostWriteSource hstep
  · rw [stagedAfter, hp]
    exact ⟨_, step_setRoff hlu (h.pending.trans hp), (h.setPending rest).setRoff n⟩

theorem staleFree_succ {n : Nat} {regions : List (Nat × Nat)} {s t : State} (h : staleFree (n + 1) regions s = true)
    (hs : step s = .next t) : nextIsStaleFree regions s = true ∧ staleFree n (stagedAfter regions s) t = true := by
  simpa only [staleFree, hs, Bool.and_eq_true] using h

/-- A run that compresses no stale byte leads two states that agree to states that agree. -/
theorem AgreeOn.run {n : Nat} {regions : List (Nat × Nat)} {s u t : State} (h : AgreeOn regions s u)
    (hfree : staleFree n regions s = true) (hrun : core.run n s = .next t) :
    ∃ t' regions', core.run n u = .next t' ∧ AgreeOn regions' t t' := by
  induction n generalizing regions s u with
  | zero =>
    cases hrun
    exact ⟨u, regions, rfl, h⟩
  | succ n ih =>
    obtain ⟨v, hstep, hrest⟩ := exists_step_of_run hrun
    obtain ⟨hnext, hfree'⟩ := staleFree_succ hfree hstep
    obtain ⟨v', hstep', hagree⟩ := staleFreeStepKeepsAgreement regions s u v h hnext hstep
    rw [run_of_next core hstep']
    exact ih hagree hfree' hrest

/-- Settles O56: the RST leaves two states that agree with no byte written, and the rest of the run keeps that. -/
theorem staleFreeRunIgnoresDraw : Obligations.StaleFreeRunIgnoresDraw := by
  intro n s t d d' rest hfree hrun
  cases n with
  | zero =>
    cases hrun
    exact ⟨_, rfl, rfl, rfl, rfl⟩
  | succ n =>
    obtain ⟨v, hstep, hrest⟩ := exists_step_of_run hrun
    have hl := (step_cases hstep).1
    obtain rfl := Host.Outcome.next.inj ((step_rst hl rfl).symm.trans hstep)
    have hagree := (AgreeOn.refl [] (s.setPending rest)).assertReset d d'
    obtain ⟨t', regions, hrun', h⟩ := hagree.run (staleFree_succ hfree hstep).2 hrest
    have hstep' : step { s with pending := .rst d' :: rest } = .next ((s.setPending rest).assertReset d') := step_rst hl rfl
    exact ⟨t', (run_of_next core hstep').trans hrun', h.chain, h.plen, h.status⟩

end Sys2Proof.Machine
end
